-- ==== Sys2Proof/Word.lean ====
section
/-! DEFINITION. The machine's word: one memory cell or one register, 8 unsigned bits (00_scope.md R9, R12). -/

namespace Sys2Proof

/-- `WORD` = 8 bits: the content of a register or of a memory cell (R9). -/
abbrev Byte := BitVec 8

end Sys2Proof
end

