-- ==== Sys2Proof/Syntax.lean ====
section
/-! DEFINITION. The 13 instructions with their raw operand bytes (30_encoding.md R54, R55), their mnemonics and
the four formats. -/

namespace Sys2Proof

/-- The 13 mnemonics of R66, in the order of R58. -/
inductive Mnemonic where
  | hlt | ldi | prn | psh | pop | cal | ret | add | mul | cmp | jmp | jeq | jne
  deriving DecidableEq, Repr

/-- The four formats of R54. -/
inductive Format where
  /-- one cell, no operand -/
  | f0
  /-- two cells, a register index -/
  | f1r
  /-- three cells, two register indices -/
  | f2rr
  /-- three cells, a register index and an immediate -/
  | f2ri
  deriving DecidableEq, Repr

/-- An instruction. A register operand is the whole operand byte, as the handler receives it (R55, R56): 0 to 7
name a register, 8 to 255 are ill formed (`Instr.wellFormed`). -/
inductive Instr where
  /-- HLT, R81 -/
  | hlt
  /-- LDI, R82: register `a`, immediate `imm` -/
  | ldi (a imm : Byte)
  /-- PRN, R83 -/
  | prn (a : Byte)
  /-- PSH, R85 -/
  | psh (a : Byte)
  /-- POP, R86 -/
  | pop (a : Byte)
  /-- CAL, R87 -/
  | cal (a : Byte)
  /-- RET, R88 -/
  | ret
  /-- ADD, R91 -/
  | add (a b : Byte)
  /-- MUL, R92 -/
  | mul (a b : Byte)
  /-- CMP, R93 -/
  | cmp (a b : Byte)
  /-- JMP, R96 -/
  | jmp (a : Byte)
  /-- JEQ, R97 -/
  | jeq (a : Byte)
  /-- JNE, R98 -/
  | jne (a : Byte)
  deriving DecidableEq, Repr

/-- The mnemonic of an instruction (R66). -/
def Instr.mnemonic : Instr → Mnemonic
  | .hlt => .hlt
  | .ldi _ _ => .ldi
  | .prn _ => .prn
  | .psh _ => .psh
  | .pop _ => .pop
  | .cal _ => .cal
  | .ret => .ret
  | .add _ _ => .add
  | .mul _ _ => .mul
  | .cmp _ _ => .cmp
  | .jmp _ => .jmp
  | .jeq _ => .jeq
  | .jne _ => .jne

/-- The operand bytes of an instruction, in encoding order (R54). -/
def Instr.operandBytes : Instr → List Byte
  | .hlt => []
  | .ldi a imm => [a, imm]
  | .prn a => [a]
  | .psh a => [a]
  | .pop a => [a]
  | .cal a => [a]
  | .ret => []
  | .add a b => [a, b]
  | .mul a b => [a, b]
  | .cmp a b => [a, b]
  | .jmp a => [a]
  | .jeq a => [a]
  | .jne a => [a]

end Sys2Proof
end

