-- ==== Sys2Proof/Config.lean ====
section
/-! DEFINITION. What a construction of the machine fixes for its life: the parameters of 00_scope.md R7 to R10 and
30_encoding.md R60. The values this hardware takes are in Decode.lean (the opcode bytes) and Machine/Hardware.lean.
Nothing in the hardware is "any value" (93_implementation_defined.md section 1), so there is no free value here. -/

namespace Sys2Proof

/-- `REG_COUNT` = 8, fixed (R7). -/
abbrev regCount : Nat := 8

/-- A register's number, 0 to 7 (R16). -/
abbrev RegIdx := Fin regCount

/-- `SP_INDEX` = 7: the stack-pointer register (R7, R17). -/
abbrev spIndex : RegIdx := 7

/-- `UNKNOWN_OPCODE_POLICY` (R10, R72). -/
inductive UnknownPolicy where
  /-- an unknown opcode faults: this hardware -/
  | fault
  /-- an unknown opcode is skipped: the reference's behaviour -/
  | skip
  deriving DecidableEq, Repr

/-- `OPCODE_MAP`: the opcode byte of each mnemonic (R59, R60). -/
structure OpcodeMap where
  hlt : Byte
  ldi : Byte
  prn : Byte
  psh : Byte
  pop : Byte
  cal : Byte
  ret : Byte
  add : Byte
  mul : Byte
  cmp : Byte
  jmp : Byte
  jeq : Byte
  jne : Byte
  deriving DecidableEq, Repr

/-- The construction parameters (R8, R10, R127). -/
structure Config where
  /-- `MEM_SIZE`, the number of memory cells (R8) -/
  memSize : Nat
  /-- `SP_RESET`, the reset value of R7 (R19) -/
  spReset : Byte
  /-- `UNKNOWN_OPCODE_POLICY` (R72) -/
  policy : UnknownPolicy
  /-- `OPCODE_MAP` (R60) -/
  opcodes : OpcodeMap
  deriving DecidableEq, Repr

end Sys2Proof
end

