-- ==== Sys2Proof/WellFormed.lean ====
section
/-! DEFINITION. When an instruction is well formed: every register operand of its format is below `REG_COUNT`
(10_state.md R21, 40_engine.md R73). LDI's immediate may be any byte (R57, R82). -/

namespace Sys2Proof

/-- The bytes of an instruction that its format reads as register indices, in the order R73 checks them. -/
def Instr.regOperands : Instr → List Byte
  | .hlt => []
  | .ldi a _ => [a]
  | .prn a => [a]
  | .psh a => [a]
  | .pop a => [a]
  | .cal a => [a]
  | .ret => []
  | .add a b => [a, b]
  | .mul a b => [a, b]
  | .cmp a b => [a, b]
  | .jmp a => [a]
  | .jeq a => [a]
  | .jne a => [a]

/-- Every register operand names a register (R21, R56). -/
def Instr.wellFormed (i : Instr) : Bool :=
  i.regOperands.all fun b => decide (b.toNat < regCount)

end Sys2Proof
end

