-- ==== Sys2Proof/Decode.lean ====
section
/-! DEFINITION. The fields of the opcode byte, the opcode map of this hardware, the decoder and the encoder
(30_encoding.md; 40_engine.md R70, R72, R73). -/

namespace Sys2Proof

/-- `v[hi:lo]` as a number (00_scope.md R11). -/
def bits (hi lo : Nat) (v : Byte) : Nat :=
  v.toNat / 2 ^ lo % 2 ^ (hi - lo + 1)

/-- Field `N` of an opcode byte: bits 7:6, the operand count (R53). -/
def operandCountField (opcode : Byte) : Nat := bits 7 6 opcode

/-- The instruction length, 1 to 4 cells: `opcode[7:6] + 1` (R63, R70). -/
def lengthField (opcode : Byte) : Nat := operandCountField opcode + 1

/-- Field `P` of an opcode byte: bit 4, "this instruction sets PC itself" (R53, R75). -/
def setsPcField (opcode : Byte) : Bool := bits 4 4 opcode == 1

/-- The format of each instruction (R54, R58). -/
def Mnemonic.format : Mnemonic → Format
  | .hlt => .f0
  | .ldi => .f2ri
  | .prn => .f1r
  | .psh => .f1r
  | .pop => .f1r
  | .cal => .f1r
  | .ret => .f0
  | .add => .f2rr
  | .mul => .f2rr
  | .cmp => .f2rr
  | .jmp => .f1r
  | .jeq => .f1r
  | .jne => .f1r

/-- The operand count of a format (R54). -/
def Format.operandCount : Format → Nat
  | .f0 => 0
  | .f1r => 1
  | .f2rr => 2
  | .f2ri => 2

/-- `N` of each instruction (R58). -/
def Mnemonic.operandCount (k : Mnemonic) : Nat := k.format.operandCount

/-- `P` of each instruction: CAL, RET, JMP, JEQ and JNE set pc themselves (R58). -/
def Mnemonic.setsPc : Mnemonic → Bool
  | .hlt => false
  | .ldi => false
  | .prn => false
  | .psh => false
  | .pop => false
  | .cal => true
  | .ret => true
  | .add => false
  | .mul => false
  | .cmp => false
  | .jmp => true
  | .jeq => true
  | .jne => true

/-- The length in cells of an instruction: its operand count plus 1 (R24, R52). -/
def Instr.length (i : Instr) : Nat := i.mnemonic.operandCount + 1

/-- The 13 mnemonics (R66). -/
def Mnemonic.all : List Mnemonic :=
  [.hlt, .ldi, .prn, .psh, .pop, .cal, .ret, .add, .mul, .cmp, .jmp, .jeq, .jne]

/-- The opcode byte a map gives a mnemonic. -/
def OpcodeMap.code (m : OpcodeMap) : Mnemonic → Byte
  | .hlt => m.hlt
  | .ldi => m.ldi
  | .prn => m.prn
  | .psh => m.psh
  | .pop => m.pop
  | .cal => m.cal
  | .ret => m.ret
  | .add => m.add
  | .mul => m.mul
  | .cmp => m.cmp
  | .jmp => m.jmp
  | .jeq => m.jeq
  | .jne => m.jne

/-- The maps R60 admits: `N` and `P` of R58 for each mnemonic, and 13 distinct bytes. -/
abbrev OpcodeMap.Admissible (m : OpcodeMap) : Prop :=
  (∀ k ∈ Mnemonic.all, operandCountField (m.code k) = k.operandCount ∧ setsPcField (m.code k) = k.setsPc) ∧
    (Mnemonic.all.map m.code).Nodup

/-- The configurations the spec admits: `MEM_SIZE` in 3..256 (R8) and an admissible map (R60). -/
abbrev Config.Admissible (c : Config) : Prop :=
  (3 ≤ c.memSize ∧ c.memSize ≤ 256) ∧ c.opcodes.Admissible

/-- The opcode bytes of this hardware, as R59 gives them. UNVERIFIED, log entry 4: the spec marks them "[from general
knowledge, not in source]"; unsafe where a machine uses other bytes. -/
def hardwareOpcodes : OpcodeMap where
  hlt := 0b00000001
  ldi := 0b10000010
  prn := 0b01000111
  psh := 0b01000101
  pop := 0b01000110
  cal := 0b01010000
  ret := 0b00010001
  add := 0b10100000
  mul := 0b10100010
  cmp := 0b10100111
  jmp := 0b01010100
  jeq := 0b01010101
  jne := 0b01010110

/-- The dispatch table: exact match of the whole byte, none for an unknown opcode (R61, R64). -/
def OpcodeMap.lookup (m : OpcodeMap) (opcode : Byte) : Option Mnemonic :=
  Mnemonic.all.find? fun k => m.code k == opcode

/-- Why the decoder gives no instruction. -/
inductive DecodeReject where
  /-- the opcode byte is none of the 13 (R61) -/
  | unknownOpcode (opcode : Byte)
  /-- a register field holds 8 to 255 (R73) -/
  | illegalRegister (operand : Byte)
  deriving DecidableEq, Repr

/-- The first operand byte that the format uses as a register index and that names no register (R73). -/
def illegalOperand (f : Format) (a b : Byte) : Option Byte :=
  match f with
  | .f0 => none
  | .f1r => if a.toNat < regCount then none else some a
  | .f2ri => if a.toNat < regCount then none else some a
  | .f2rr => if a.toNat < regCount then (if b.toNat < regCount then none else some b) else some a

/-- The instruction of a mnemonic with the two fetched operand bytes; unused bytes are ignored (R54). -/
def buildInstr (k : Mnemonic) (a b : Byte) : Instr :=
  match k with
  | .hlt => .hlt
  | .ldi => .ldi a b
  | .prn => .prn a
  | .psh => .psh a
  | .pop => .pop a
  | .cal => .cal a
  | .ret => .ret
  | .add => .add a b
  | .mul => .mul a b
  | .cmp => .cmp a b
  | .jmp => .jmp a
  | .jeq => .jeq a
  | .jne => .jne a

/-- Steps 4 and 4b of the cycle: the lookup, then the register-field check (R72, R73). Both operand bytes are
always at hand, because every cycle fetches them (R55). -/
def decodeInstr (m : OpcodeMap) (opcode a b : Byte) : Except DecodeReject Instr :=
  match m.lookup opcode with
  | none => .error (.unknownOpcode opcode)
  | some k =>
    match illegalOperand k.format a b with
    | some x => .error (.illegalRegister x)
    | none => .ok (buildInstr k a b)

/-- Why a byte sequence does not begin with an instruction. -/
inductive StreamReject where
  /-- the bytes end before the instruction does -/
  | truncated
  /-- the decoder gives no instruction -/
  | rejected (r : DecodeReject)
  deriving DecidableEq, Repr

/-- Decoding any byte sequence, a program image for one: its first instruction and the bytes after it. Only the
operand bytes the instruction has are taken (R52, R63). -/
def decode (m : OpcodeMap) : List Byte → Except StreamReject (Instr × List Byte)
  | [] => .error .truncated
  | opcode :: rest =>
    match m.lookup opcode with
    | none => .error (.rejected (.unknownOpcode opcode))
    | some k =>
      if rest.length < k.operandCount then .error .truncated
      else
        match decodeInstr m opcode (rest.getD 0 0) (rest.getD 1 0) with
        | .error r => .error (.rejected r)
        | .ok i => .ok (i, rest.drop k.operandCount)

/-- The bytes of an instruction in ascending address order: the opcode and its operands (R41, R54). -/
def encode (m : OpcodeMap) (i : Instr) : List Byte :=
  m.code i.mnemonic :: i.operandBytes

/-- The three bytes of a number whose bit 0 is bit 0 of the first byte: the opcode table's numbering. -/
def tableBytes (nbits w : Nat) : Byte × Byte × Byte :=
  let v := w % 2 ^ nbits
  (BitVec.ofNat 8 v, BitVec.ofNat 8 (v / 256), BitVec.ofNat 8 (v / 65536))

/-- The instruction this hardware's decoder reads from the `nbits` low bits of `w`, every byte above them 0. -/
def decodeTableWord (nbits w : Nat) : Option Instr :=
  let (opcode, a, b) := tableBytes nbits w
  match decodeInstr hardwareOpcodes opcode a b with
  | .ok i => some i
  | .error _ => none

end Sys2Proof
end

