-- ==== Sys2Proof/Machine/Hardware.lean ====
section
/-! DEFINITION. The parameters this hardware takes (00_scope.md R8, R10; 92_eei_decisions.md, named parameters). -/

namespace Sys2Proof.Machine

/-- `MEM_SIZE` = 256, `SP_RESET` = 0, `UNKNOWN_OPCODE_POLICY` = Fault, `OPCODE_MAP` = R59. -/
def hardwareConfig : Config where
  memSize := 256
  spReset := 0
  policy := .fault
  opcodes := hardwareOpcodes

end Sys2Proof.Machine
end

