-- ==== Sys2Proof/Machine/State.lean ====
section
/-! DEFINITION. The machine's state, everything the spec gives it (10_state.md, 20_memory.md R36, 60_exceptions.md
R99), and the state after reset (70_reset_and_hazards.md R115, R116). -/

namespace Sys2Proof.Machine

/-- The flags register `FL` as its three bits (R26, R27). -/
structure Flags where
  /-- EQUAL -/
  e : Bool
  /-- GREATER -/
  g : Bool
  /-- LESS -/
  l : Bool
  deriving DecidableEq, Repr

/-- Memory: the cells that do not read 0, by rising address. An unlisted cell reads 0 (R40). -/
abbrev Memory := List Host.Cell

/-- The info of a load error, "the line or the reason" (R99). -/
inductive LoadProblem where
  /-- the line with this number, counted from 0, is not a binary literal (R119, R121) -/
  | malformedLine (line : Nat) (text : List Char)
  /-- the image has more bytes than there are cells (R118) -/
  | imageTooLong (length : Nat)
  /-- the value at this index of the image is above 255 (R118) -/
  | valueTooLarge (index value : Nat)
  deriving DecidableEq, Repr

/-- The fault reasons with the info they record (R99). All are safe: the spec itself ends the run here (R100). -/
inductive Fault where
  /-- code 1; raised by `memRead` and `memWrite` at an address at or above `MEM_SIZE` (R38, R39, R101). Safe. -/
  | memOutOfBounds (addr : Nat)
  /-- code 2; raised by the register-field check of the decoder, and by `withReg` (R73, R102). Safe. -/
  | illegalRegister (operand : Byte)
  /-- code 3; raised by the engine for an unknown opcode under the policy Fault (R72, R103). Safe. -/
  | unknownOpcode (opcode : Byte)
  /-- code 4; raised by the ALU for another selector, never in this hardware (R94). Safe. -/
  | unsupportedAluOp (selector : Nat)
  /-- code 5; raised by the loader before the first cycle, never by a step (R121). Safe. -/
  | loadError (problem : LoadProblem)
  deriving DecidableEq, Repr

/-- Why a step has no cycle to run. -/
inductive Refusal where
  /-- an instruction without a meaning: every instruction of this model has one, so nothing raises it. Safe. -/
  | notModelled (mnemonic : String)
  /-- raised by `step` on a Halted machine: no cycle follows (R15, R33). Safe. -/
  | haltedNoCycle
  /-- raised by `step` on a Faulted machine: no cycle follows (R15, R33, R100). Safe. -/
  | faultedNoCycle (r : Fault)
  deriving DecidableEq, Repr

/-- The machine status (R33). -/
inductive Status where
  | running
  | halted
  | faulted (r : Fault)
  deriving DecidableEq, Repr

/-- The state of the machine. -/
structure State where
  /-- the construction parameters, which no step changes (R8, R10) -/
  cfg : Config
  /-- R0 to R7; R7 is the stack pointer (R16, R17) -/
  regs : Vector Byte regCount
  /-- the program counter, an unsigned integer that does not wrap (R22, R25; log entries 6 and 7) -/
  pc : Nat
  /-- the flags register (R26) -/
  fl : Flags
  /-- the running flag (R32) -/
  running : Bool
  /-- the fault that has been raised, if any: with `running` it makes the status (R33) -/
  fault : Option Fault
  /-- the output sequence, oldest value first (R31) -/
  out : List Byte
  /-- memory (R36) -/
  mem : Memory
  deriving DecidableEq, Repr

/-- The status a state has (R33). -/
def State.status (s : State) : Status :=
  match s.fault with
  | some r => .faulted r
  | none => if s.running then .running else .halted

/-- The machine right after construction with parameters `c`, before the load (R115, R116): registers 0 but R7,
which is `SP_RESET` (R19), pc 0 (R23), FL 0 (R30), running 1 (R32, log entry 12), out empty (R31), memory 0 (R40). -/
def State.construct (c : Config) : State where
  cfg := c
  regs := (Vector.replicate regCount 0).set 7 c.spReset
  pc := 0
  fl := { e := false, g := false, l := false }
  running := true
  fault := none
  out := []
  mem := []

/-- This hardware after reset, with no image loaded (R115; log entry 13). -/
def State.reset : State := State.construct hardwareConfig

end Sys2Proof.Machine
end

