-- ==== Sys2Proof/Machine/Ops.lean ====
section
/-! DEFINITION. The named operations over memory, registers, the stack, the output and the status
(00_scope.md R13; 20_memory.md R38, R39; 10_state.md R20; 42_stack.md R84; 60_exceptions.md R100). -/

namespace Sys2Proof.Machine

/-- What a meaning answers. -/
abbrev Result := Host.Outcome State Fault Refusal

/-- Goes on with a value, or raises the fault that stood in its way: `raise` stops the statement list (R14). -/
def orFault {α : Type} (x : Except Fault α) (k : α → Result) : Result :=
  match x with
  | .ok v => k v
  | .error r => .fault r

/-! ### Memory cells -/

/-- What a cell that nothing has written reads as: 0 (R40). -/
def unlistedByte : Byte := 0

/-- The content of a cell. -/
def Memory.read (m : Memory) (addr : Nat) : Byte :=
  match m with
  | [] => unlistedByte
  | (k, v) :: rest => if k = addr then v else Memory.read rest addr

/-- Stores a byte and keeps the canonical form: a cell that reads as an unlisted one is not listed. -/
def Memory.write (m : Memory) (addr : Nat) (v : Byte) : Memory :=
  match m with
  | [] => if v = unlistedByte then [] else [(addr, v)]
  | (k, w) :: rest =>
    if addr < k then
      if v = unlistedByte then (k, w) :: rest else (addr, v) :: (k, w) :: rest
    else if addr = k then
      if v = unlistedByte then rest else (addr, v) :: rest
    else (k, w) :: Memory.write rest addr v

/-- The canonical form: addresses strictly rising, no cell listed that reads as an unlisted one. -/
abbrev Memory.wf (m : Memory) : Prop :=
  (m.map Prod.fst).Pairwise (· < ·) ∧ ∀ c ∈ m, c.2 ≠ unlistedByte

/-- Stores bytes at consecutive addresses (R120). -/
def Memory.writeFrom (m : Memory) (addr : Nat) (bytes : List Byte) : Memory :=
  match bytes with
  | [] => m
  | v :: rest => Memory.writeFrom (m.write addr v) (addr + 1) rest

/-- The state with another memory. -/
def State.setMem (s : State) (m : Memory) : State := { s with mem := m }

/-- `MemRead(addr, 1)` (R38). -/
def memRead (s : State) (addr : Nat) : Except Fault Byte :=
  if addr < s.cfg.memSize then .ok (s.mem.read addr) else .error (.memOutOfBounds addr)

/-- `MemWrite(addr, 1, v)`; a byte is already `v mod 256` (R39). -/
def memWrite (s : State) (addr : Nat) (v : Byte) : Except Fault State :=
  if addr < s.cfg.memSize then .ok (s.setMem (s.mem.write addr v)) else .error (.memOutOfBounds addr)

/-! ### Registers, flags, pc, output, running flag -/

/-- `x[i]` (R13). -/
def State.reg (s : State) (i : RegIdx) : Byte := s.regs[i.val]

/-- `x[i] <- v`; a byte is already `v mod 256` (R13, R20). -/
def State.setReg (s : State) (i : RegIdx) (v : Byte) : State :=
  { s with regs := s.regs.set i.val v }

/-- `SP` (R13, R17). -/
def State.sp (s : State) : Byte := s.reg spIndex

/-- `pc <- target` (R13). -/
def State.setPc (s : State) (target : Nat) : State := { s with pc := target }

/-- Writes all three flags (R28). -/
def State.setFl (s : State) (f : Flags) : State := { s with fl := f }

/-- `emit(v)`: appends one value to the output sequence (R31). -/
def State.emit (s : State) (v : Byte) : State := { s with out := s.out ++ [v] }

/-- `running <- false` (R13, R32). -/
def State.halt (s : State) : State := { s with running := false }

/-- A register value or stack cell taken as a jump target: an address 0 to 255 (R95). -/
def targetOf (v : Byte) : Nat := v.toNat

/-! ### The stack (R84) -/

/-- `SP <- (SP - 1) mod 256`. -/
def State.decSp (s : State) : State := s.setReg spIndex (s.sp - 1)

/-- `SP <- (SP + 1) mod 256`. -/
def State.incSp (s : State) : State := s.setReg spIndex (s.sp + 1)

/-- The cell a push from `s` writes: SP after the decrement (R84). -/
def State.pushAddr (s : State) : Nat := s.decSp.sp.toNat

/-- The cell a pop from `s` reads: SP before the increment (R84). -/
def State.popAddr (s : State) : Nat := s.sp.toNat

/-- `push(v)`: the decrement, then the write at the new SP. The value is computed from the state after the
decrement, in the order the spec lists the effects (R14, R85, R87). -/
def push (s : State) (v : State → Byte) : Except Fault State :=
  memWrite s.decSp s.pushAddr (v s.decSp)

/-- The read of `pop()`; SP is incremented after it (R84). -/
def popRead (s : State) : Except Fault Byte := memRead s s.popAddr

/-- The return address CAL pushes: `pc + 2`, stored as a cell (R39, R87). -/
def returnAddress (s : State) : Byte := BitVec.ofNat 8 (s.pc + 2)

/-! ### Taking a fault (R99, R100, R104) -/

/-- Fault entry: the status becomes Faulted(reason, info) and nothing else changes (R100, R104). There is no
handler, no vector, no saved state and no way back (R107). -/
def State.enterFault (s : State) (r : Fault) : State := { s with fault := some r }

/-- The numeric code of a fault reason (R99). -/
def Fault.code : Fault → Nat
  | .memOutOfBounds _ => 1
  | .illegalRegister _ => 2
  | .unknownOpcode _ => 3
  | .unsupportedAluOp _ => 4
  | .loadError _ => 5

/-- The state a machine that was in `s` is in after an outcome: a fault leaves `s` with the Faulted status (R104),
and where no cycle runs nothing changes (R15). -/
def settle (s : State) (o : Result) : State :=
  match o with
  | .next t => t
  | .fault r => s.enterFault r
  | .refused _ => s

/-! ### Looking at an outcome -/

/-- The next state of an outcome, if there is one. -/
def nextOf (o : Result) : Option State :=
  match o with
  | .next s => some s
  | .fault _ => none
  | .refused _ => none

/-- The fault of an outcome, if there is one. -/
def faultOf (o : Result) : Option Fault :=
  match o with
  | .next _ => none
  | .fault r => some r
  | .refused _ => none

/-- The refusal of an outcome, if there is one. -/
def refusalOf (o : Result) : Option Refusal :=
  match o with
  | .next _ => none
  | .fault _ => none
  | .refused r => some r

end Sys2Proof.Machine
end

