-- ==== Sys2Proof/Machine/Flags.lean ====
section
/-! DEFINITION. The flag computation of CMP, the flag the conditional jumps read, and FL as a byte
(43_alu.md R93; 10_state.md R27, R29). -/

namespace Sys2Proof.Machine

/-- The flags CMP sets: exactly one of the three, by unsigned comparison (R93). -/
def compareFlags (x y : Byte) : Flags :=
  if x = y then { e := true, g := false, l := false }
  else if x.toNat > y.toNat then { e := false, g := true, l := false }
  else { e := false, g := false, l := true }

/-- The condition of JEQ; JNE's is its negation. Only `E` is read (R29). -/
def equalSet (f : Flags) : Bool := f.e

/-- FL as a byte: E bit 0, G bit 1, L bit 2, bits 7 to 3 zero (R27). No instruction reads it so; it is for a dump
of the state. -/
def Flags.toByte (f : Flags) : Byte :=
  (if f.e then 0b001 else 0) + (if f.g then 0b010 else 0) + (if f.l then 0b100 else 0)

end Sys2Proof.Machine
end

