-- ==== Sys2Proof/Machine/Operands.lean ====
section
/-! DEFINITION. The operand forms: a register operand is a whole byte that must name a register; the immediate is
an 8-bit unsigned value as it stands (30_encoding.md R56, R57; 10_state.md R21). -/

namespace Sys2Proof.Machine

/-- Register operand: 0 to 7 name R0 to R7, anything else faults (R21, R56, R73). DEDUCED, safe, log entry 11: the
decoder has made this check before the handler runs, so a decoded instruction never faults here. -/
def withReg (a : Byte) (k : RegIdx → Result) : Result :=
  if h : a.toNat < regCount then k ⟨a.toNat, h⟩ else .fault (.illegalRegister a)

/-- Two register operands, `operand_a` checked first (R73). -/
def withRegs (a b : Byte) (k : RegIdx → RegIdx → Result) : Result :=
  withReg a fun i => withReg b fun j => k i j

/-- Immediate operand: `zext_8(operand_b)`, the byte as it stands (R57). -/
def immediate (imm : Byte) : Byte := imm

end Sys2Proof.Machine
end

