-- ==== Sys2Proof/Machine/Alu.lean ====
section
/-! DEFINITION. The arithmetic/logic unit and the handlers of ADD, MUL and CMP (43_alu.md). -/

namespace Sys2Proof.Machine

/-- What the ALU can be asked to do. DESIGN CHOICE, safe, log entry 10: the spec gives no encoding of the
selector, so any other request is a number. -/
inductive AluSelector where
  | add
  | mul
  | cmp
  /-- a request the ALU does not support (R94) -/
  | other (selector : Nat)
  deriving DecidableEq, Repr

/-- `(x + y) mod 256` (R91). -/
def aluSum (x y : Byte) : Byte := BitVec.ofNat 8 (x.toNat + y.toNat)

/-- `(x * y) mod 256`, the low 8 bits of the full product (R92). -/
def aluProduct (x y : Byte) : Byte := BitVec.ofNat 8 (x.toNat * y.toNat)

/-- The ALU: a stateless function of a selector and two register indices (R89, R90). ADD and MUL write `x[a]` and no
flag; CMP writes `FL` and no register; any other selector faults (R94). -/
def alu (sel : AluSelector) (a b : RegIdx) (s : State) : Result :=
  match sel with
  | .add => .next (s.setReg a (aluSum (s.reg a) (s.reg b)))
  | .mul => .next (s.setReg a (aluProduct (s.reg a) (s.reg b)))
  | .cmp => .next (s.setFl (compareFlags (s.reg a) (s.reg b)))
  | .other n => .fault (.unsupportedAluOp n)

/-- ADD (R91). -/
def execAdd (a b : Byte) (s : State) : Result := withRegs a b fun i j => alu .add i j s

/-- MUL (R92). -/
def execMul (a b : Byte) (s : State) : Result := withRegs a b fun i j => alu .mul i j s

/-- CMP (R93). -/
def execCmp (a b : Byte) (s : State) : Result := withRegs a b fun i j => alu .cmp i j s

end Sys2Proof.Machine
end

