-- ==== Sys2Proof/Machine/Basic.lean ====
section
/-! DEFINITION. The handlers of HLT, LDI and PRN (41_basic.md). The engine advances pc after each of them (R75). -/

namespace Sys2Proof.Machine

/-- HLT (R81). -/
def execHlt (s : State) : Result := .next s.halt

/-- LDI (R82). -/
def execLdi (a imm : Byte) (s : State) : Result :=
  withReg a fun d => .next (s.setReg d (immediate imm))

/-- PRN (R83). -/
def execPrn (a : Byte) (s : State) : Result :=
  withReg a fun r => .next (s.emit (s.reg r))

end Sys2Proof.Machine
end

