-- ==== Sys2Proof/Machine/Branch.lean ====
section
/-! DEFINITION. The handlers of JMP, JEQ and JNE (44_branch.md). All three write pc on every path, because the
engine does not advance it after them (R80). -/

namespace Sys2Proof.Machine

/-- A conditional jump: the target when taken, the address after this 2-byte instruction when not (R80, R97). -/
def jumpIf (taken : Bool) (r : RegIdx) (s : State) : State :=
  if taken then s.setPc (targetOf (s.reg r)) else s.setPc (s.pc + 2)

/-- JMP (R96). -/
def execJmp (a : Byte) (s : State) : Result :=
  withReg a fun r => .next (s.setPc (targetOf (s.reg r)))

/-- JEQ (R97). -/
def execJeq (a : Byte) (s : State) : Result :=
  withReg a fun r => .next (jumpIf (equalSet s.fl) r s)

/-- JNE (R98). -/
def execJne (a : Byte) (s : State) : Result :=
  withReg a fun r => .next (jumpIf (!equalSet s.fl) r s)

end Sys2Proof.Machine
end

