-- ==== Sys2Proof/Machine/Stack.lean ====
section
/-! DEFINITION. The handlers of PSH, POP, CAL and RET (42_stack.md). -/

namespace Sys2Proof.Machine

/-- PSH (R85): the register is read after the decrement. -/
def execPsh (a : Byte) (s : State) : Result :=
  withReg a fun r => orFault (push s fun t => t.reg r) fun t => .next t

/-- POP (R86): SP is incremented after the register is written, so `POP R7` ends as the value plus 1. -/
def execPop (a : Byte) (s : State) : Result :=
  withReg a fun d => orFault (popRead s) fun v => .next (s.setReg d v).incSp

/-- CAL (R87): pushes `pc + 2`, then reads the target, so `CAL R7` jumps to the decremented SP. -/
def execCal (a : Byte) (s : State) : Result :=
  withReg a fun r => orFault (push s returnAddress) fun t => .next (t.setPc (targetOf (t.reg r)))

/-- RET (R88). -/
def execRet (s : State) : Result :=
  orFault (popRead s) fun v => .next (s.setPc (targetOf v)).incSp

end Sys2Proof.Machine
end

