-- ==== Sys2Proof/Machine/Engine.lean ====
section
/-! DEFINITION. The engine's cycle: fetch, operand prefetch, decode, register-field check, dispatch and advance
(40_engine.md R69 to R76), and the placing of bytes where the next fetch reads them. -/

namespace Sys2Proof.Machine

/-- What a cycle has fetched. It does not survive the cycle (R34). -/
structure Fetched where
  opcode : Byte
  operandA : Byte
  operandB : Byte
  deriving DecidableEq, Repr

/-- Steps 1 and 3: the opcode at pc and both operand bytes, read in this order in every cycle (R69, R71). -/
def fetch (s : State) : Except Fault Fetched :=
  match memRead s s.pc with
  | .error r => .error r
  | .ok opcode =>
    match memRead s (s.pc + 1) with
    | .error r => .error r
    | .ok a =>
      match memRead s (s.pc + 2) with
      | .error r => .error r
      | .ok b => .ok { opcode := opcode, operandA := a, operandB := b }

/-- Step 6, advance: by the length when bit 4 of the opcode is 0, else pc stays as the handler left it (R75). -/
def advance (opcode : Byte) (s : State) : State :=
  if setsPcField opcode then s else s.setPc (s.pc + lengthField opcode)

/-- The unknown-opcode action (R72). Under Skip only pc changes, by step 6 (90_conflicts.md C5). -/
def unknownOpcodeAction (opcode : Byte) (s : State) : Result :=
  match s.cfg.policy with
  | .fault => .fault (.unknownOpcode opcode)
  | .skip => .next (advance opcode s)

/-- Steps 5 and 6 for a decoded instruction: the handler, then the advance of the state it left (R74, R75). -/
def runInstr (opcode : Byte) (i : Instr) (s : State) : Result :=
  match exec i s with
  | .next t => .next (advance opcode t)
  | .fault r => .fault r
  | .refused r => .refused r

/-- Steps 4 to 6 on what was fetched (R72 to R75). -/
def runFetched (f : Fetched) (s : State) : Result :=
  match decodeInstr s.cfg.opcodes f.opcode f.operandA f.operandB with
  | .error (.unknownOpcode b) => unknownOpcodeAction b s
  | .error (.illegalRegister b) => .fault (.illegalRegister b)
  | .ok i => runInstr f.opcode i s

/-- One cycle of a Running machine (R76). -/
def engineCycle (s : State) : Result := orFault (fetch s) fun f => runFetched f s

/-- One step: a cycle while the status is Running, and none otherwise (R15, R33, R68). DEDUCED, safe, log entry 2. -/
def engineStep (s : State) : Result :=
  match s.status with
  | .running => engineCycle s
  | .halted => .refused .haltedNoCycle
  | .faulted r => .refused (.faultedNoCycle r)

/-- Stores a byte where it exists, and nothing where it does not. -/
def pokeByte (m : Memory) (size addr : Nat) (v : Byte) : Memory :=
  if addr < size then m.write addr v else m

/-- The longest instruction's three bytes placed at pc, pc + 1 and pc + 2. -/
def placeAtPc (s : State) (bytes : Byte × Byte × Byte) : State :=
  let (opcode, a, b) := bytes
  let m0 := pokeByte s.mem s.cfg.memSize s.pc opcode
  let m1 := pokeByte m0 s.cfg.memSize (s.pc + 1) a
  s.setMem (pokeByte m1 s.cfg.memSize (s.pc + 2) b)

end Sys2Proof.Machine
end

