-- ==== Sys2Proof/Machine/Step.lean ====
section
/-! DEFINITION. One step of the machine, and the placing of an instruction at the next fetch. Both only call
Machine/Engine.lean. -/

namespace Sys2Proof.Machine

/-- One cycle of the machine (40_engine.md R76). -/
def step (s : State) : Host.Outcome State Fault Refusal := engineStep s

/-- `s` with the instruction whose opcode-table bits are `w` stored at its pc (log entry 13). -/
def State.withFetchWord (s : State) (nbits w : Nat) : State := placeAtPc s (tableBytes nbits w)

end Sys2Proof.Machine
end

