-- ==== Sys2Proof/Machine/Loader.lean ====
section
/-! DEFINITION. The loader's interface: the text form of an image, the load into memory, and the start of the run
(70_reset_and_hazards.md R118 to R122). It acts once, before the first cycle (R120, R127). -/

namespace Sys2Proof.Machine

/-- White space: space, tab, line feed, vertical tab, form feed, carriage return. DESIGN CHOICE, log entry 8: R119
does not list the characters; unsafe for a claim about a line with another blank character. -/
def isBlank (c : Char) : Bool := c.toNat == 32 || (9 ≤ c.toNat && c.toNat ≤ 13)

/-- A line without its leading and trailing white space. -/
def trimBlanks (cs : List Char) : List Char :=
  ((cs.dropWhile isBlank).reverse.dropWhile isBlank).reverse

/-- `line'` of R119: everything from the first `#` removed, then trimmed. -/
def strippedLine (line : List Char) : List Char :=
  trimBlanks (line.takeWhile fun c => c != '#')

/-- The value of a binary digit. -/
def binaryDigit (c : Char) : Option Nat :=
  if c = '0' then some 0 else if c = '1' then some 1 else none

/-- The value of a binary literal, most significant digit first, read on from `acc`. -/
def binaryValue (acc : Nat) (cs : List Char) : Option Nat :=
  match cs with
  | [] => some acc
  | c :: rest =>
    match binaryDigit c with
    | none => none
    | some d => binaryValue (2 * acc + d) rest

/-- What a line contributes (R119). -/
inductive LineForm where
  /-- no byte -/
  | blank
  /-- one byte of the image -/
  | byte (v : Byte)
  /-- a load error -/
  | malformed
  deriving DecidableEq, Repr

/-- Reads one line (R119). -/
def parseLine (line : List Char) : LineForm :=
  let text := strippedLine line
  if text = [] then .blank
  else if text.length = 8 then
    match binaryValue 0 text with
    | some v => .byte (BitVec.ofNat 8 v)
    | none => .malformed
  else .malformed

/-- Reads the lines of a text, the first of which has number `n`. The first malformed line is the one reported
(DESIGN CHOICE, safe, log entry 9). -/
def parseLines (n : Nat) (lines : List (List Char)) : Except LoadProblem (List Byte) :=
  match lines with
  | [] => .ok []
  | line :: rest =>
    match parseLine line with
    | .malformed => .error (.malformedLine n line)
    | .blank => parseLines (n + 1) rest
    | .byte v =>
      match parseLines (n + 1) rest with
      | .error p => .error p
      | .ok image => .ok (v :: image)

/-- The 8-character line of a byte, bit 7 first (R119). -/
def byteLine (v : Byte) : List Char :=
  [7, 6, 5, 4, 3, 2, 1, 0].map fun i => if v.getLsbD i then '1' else '0'

/-- The first value of an image above 255, with its index counted from `i` (R118). -/
def firstTooLarge (i : Nat) (image : List Nat) : Option (Nat × Nat) :=
  match image with
  | [] => none
  | v :: rest => if v < 256 then firstTooLarge (i + 1) rest else some (i, v)

/-- What is wrong with an image, if anything (R118). The length is looked at first (DESIGN CHOICE, safe, log entry
9). -/
def imageProblem (size : Nat) (image : List Nat) : Option LoadProblem :=
  if size < image.length then some (.imageTooLong image.length)
  else
    match firstTooLarge 0 image with
    | some (i, v) => some (.valueTooLarge i v)
    | none => none

/-- Loads an image into memory from address 0, or fails (R120, R121). -/
def loadImage (image : List Nat) (s : State) : Result :=
  match imageProblem s.cfg.memSize image with
  | some p => .fault (.loadError p)
  | none => .next (s.setMem (s.mem.writeFrom 0 (image.map (BitVec.ofNat 8))))

/-- Loads an image given in its text form (R119, R120, R121). -/
def loadText (lines : List (List Char)) (s : State) : Result :=
  match parseLines 0 lines with
  | .error p => .fault (.loadError p)
  | .ok image => loadImage (image.map BitVec.toNat) s

/-- The host's call of `run()` sets `running` (R68, R122). -/
def State.startRun (s : State) : State := { s with running := true }

/-- Construct, load, start (R127). A failed load leaves the machine Faulted, and no cycle will run (R121). -/
def boot (c : Config) (lines : List (List Char)) : State :=
  (settle (State.construct c) (loadText lines (State.construct c))).startRun

end Sys2Proof.Machine
end

