-- ==== Sys2Proof/Machine/Assembly.lean ====
section
/-! DEFINITION. The assembly syntax of one instruction (30_encoding.md R65, R66, R67): a mnemonic and its operands,
mnemonics and register names in either case, `CALL` an alias of `CAL`. Where R65 leaves a detail open the choice is in
log entry 15 (DESIGN CHOICE, safe: a form it does not name is rejected). -/

namespace Sys2Proof.Machine

/-- The canonical spelling of a mnemonic (R66). -/
def mnemonicText : Mnemonic → List Char
  | .hlt => ['H', 'L', 'T']
  | .ldi => ['L', 'D', 'I']
  | .prn => ['P', 'R', 'N']
  | .psh => ['P', 'S', 'H']
  | .pop => ['P', 'O', 'P']
  | .cal => ['C', 'A', 'L']
  | .ret => ['R', 'E', 'T']
  | .add => ['A', 'D', 'D']
  | .mul => ['M', 'U', 'L']
  | .cmp => ['C', 'M', 'P']
  | .jmp => ['J', 'M', 'P']
  | .jeq => ['J', 'E', 'Q']
  | .jne => ['J', 'N', 'E']

/-- A letter in upper case. -/
def upperLetter (c : Char) : Char :=
  if 97 ≤ c.toNat && c.toNat ≤ 122 then Char.ofNat (c.toNat - 32) else c

/-- The mnemonic a word names, `CALL` among them (R66). -/
def parseMnemonic (word : List Char) : Option Mnemonic :=
  let w := word.map upperLetter
  if w = ['C', 'A', 'L', 'L'] then some .cal else Mnemonic.all.find? fun k => mnemonicText k == w

/-- The value of a digit in a base up to 16. -/
def digitValue (base : Nat) (c : Char) : Option Nat :=
  let n := c.toNat
  let d :=
    if 48 ≤ n && n ≤ 57 then n - 48
    else if 97 ≤ n && n ≤ 102 then n - 87
    else if 65 ≤ n && n ≤ 70 then n - 55
    else base
  if d < base then some d else none

/-- The value of a string of digits, read on from `acc`. -/
def digitsValue (base acc : Nat) (cs : List Char) : Option Nat :=
  match cs with
  | [] => some acc
  | c :: rest =>
    match digitValue base c with
    | none => none
    | some d => digitsValue base (base * acc + d) rest

/-- A number: decimal, `0b` binary or `0x` hexadecimal (R65). -/
def parseNumber (word : List Char) : Option Nat :=
  match word with
  | [] => none
  | '0' :: 'b' :: c :: rest => digitsValue 2 0 (c :: rest)
  | '0' :: 'x' :: c :: rest => digitsValue 16 0 (c :: rest)
  | c :: rest => digitsValue 10 0 (c :: rest)

/-- An immediate: a number 0 to 255 (R57, R65). -/
def parseImmediate (word : List Char) : Option Byte :=
  match parseNumber word with
  | none => none
  | some n => if n < 256 then some (BitVec.ofNat 8 n) else none

/-- A register name, `r0` to `r7` in either case (R65). -/
def parseRegister (word : List Char) : Option Byte :=
  match word with
  | [r, d] =>
    if upperLetter r = 'R' then
      match digitValue 8 d with
      | some n => some (BitVec.ofNat 8 n)
      | none => none
    else none
  | _ => none

/-- What separates words: white space, or a comma between operands (R65). -/
def isSeparator (c : Char) : Bool := isBlank c || c == ','

/-- The words of a line; `word` holds the letters of the current one, last letter first. -/
def splitWords (word : List Char) (cs : List Char) : List (List Char) :=
  match cs with
  | [] => if word = [] then [] else [word.reverse]
  | c :: rest =>
    if isSeparator c then
      if word = [] then splitWords [] rest else word.reverse :: splitWords [] rest
    else splitWords (c :: word) rest

/-- The instruction with this mnemonic and these operand words, by its format (R54, R65). -/
def parseOperands (k : Mnemonic) (operands : List (List Char)) : Option Instr :=
  match k.format, operands with
  | .f0, [] => some (buildInstr k 0 0)
  | .f1r, [x] =>
    match parseRegister x with
    | some a => some (buildInstr k a 0)
    | none => none
  | .f2rr, [x, y] =>
    match parseRegister x, parseRegister y with
    | some a, some b => some (buildInstr k a b)
    | _, _ => none
  | .f2ri, [x, y] =>
    match parseRegister x, parseImmediate y with
    | some a, some imm => some (buildInstr k a imm)
    | _, _ => none
  | _, _ => none

/-- The instruction a line of assembly names, none where the line is not of the syntax. Each form that is accepted
maps to exactly one encoding (92_eei_decisions.md D19). -/
def assembleLine (line : List Char) : Option Instr :=
  match splitWords [] line with
  | [] => none
  | word :: operands =>
    match parseMnemonic word with
    | none => none
    | some k => parseOperands k operands

/-- A decimal digit. -/
def digitText (d : Nat) : Char := Char.ofNat (48 + d)

/-- The canonical text of a register operand: `R` and its number (R65). -/
def registerText (a : Byte) : List Char := ['R', digitText a.toNat]

/-- The decimal text of a byte, without leading zeros (R65). -/
def byteText (v : Byte) : List Char :=
  let n := v.toNat
  if n < 10 then [digitText n]
  else if n < 100 then [digitText (n / 10), digitText (n % 10)]
  else [digitText (n / 100), digitText (n / 10 % 10), digitText (n % 10)]

/-- The canonical text of an instruction, operands in encoding order (R65). -/
def instrText (i : Instr) : List Char :=
  mnemonicText i.mnemonic ++
    match i with
    | .hlt | .ret => []
    | .ldi a imm => ' ' :: registerText a ++ [',', ' '] ++ byteText imm
    | .prn a | .psh a | .pop a | .cal a | .jmp a | .jeq a | .jne a => ' ' :: registerText a
    | .add a b | .mul a b | .cmp a b => ' ' :: registerText a ++ [',', ' '] ++ registerText b

end Sys2Proof.Machine
end

