-- ==== Sys2Proof/Machine/Run.lean ====
section
/-! DEFINITION. The engine's loop and the end of a run (40_engine.md R68, R77; 70_reset_and_hazards.md R128). -/

namespace Sys2Proof.Machine

/-- One cycle as the loop sees it: the state after it, in which a fault stands in the status (R68, R100, R104). -/
def cycle (s : State) : State := settle s (step s)

/-- At most `n` cycles of the loop, which stops when the status is not Running (R68). -/
def runFor (n : Nat) (s : State) : State :=
  match n with
  | 0 => s
  | n + 1 =>
    match s.status with
    | .running => runFor n (cycle s)
    | .halted => s
    | .faulted _ => s

/-- What a run gives (R128). A run that ends Faulted gives its reason and info only. -/
inductive RunResult where
  | halted (out : List Byte) (regs : Vector Byte regCount) (pc : Nat) (fl : Flags) (mem : Memory)
  | faulted (r : Fault)
  deriving DecidableEq, Repr

/-- The result of a run that has ended, none while the status is Running (R128). -/
def State.result (s : State) : Option RunResult :=
  match s.status with
  | .running => none
  | .halted => some (.halted s.out s.regs s.pc s.fl s.mem)
  | .faulted r => some (.faulted r)

/-- The result after `run()` and at most `n` cycles (R68, R122, R128). -/
def runResult (n : Nat) (s : State) : Option RunResult := (runFor n s.startRun).result

end Sys2Proof.Machine
end

