-- ==== Sys2Proof/Safety.lean ====
section
/-! DEFINITION. The terms claims use: the invariant of the machine, when a state's next cycle runs an instruction,
what an effect leaves unchanged, and what a safe run is. -/

namespace Sys2Proof.Machine

/-- At most one flag is set: "mutually-exclusive-in-practice" (10_state.md R26). -/
abbrev Flags.exclusive (f : Flags) : Prop :=
  ¬(f.e = true ∧ f.g = true) ∧ ¬(f.e = true ∧ f.l = true) ∧ ¬(f.g = true ∧ f.l = true)

/-- Every listed cell exists (20_memory.md R36). -/
abbrev Memory.within (size : Nat) (m : Memory) : Prop := ∀ c ∈ m, c.1 < size

/-- The greatest value pc can take: `MEM_SIZE` by advance (R22), 255 by a jump (R95), and one above `MEM_SIZE` where
Skip passes a 4-cell unknown opcode (R70, R72; log entries 6 and 7). -/
def State.pcBound (s : State) : Nat :=
  match s.cfg.policy with
  | .fault => max 255 s.cfg.memSize
  | .skip => max 255 (s.cfg.memSize + 1)

/-- The invariant every step keeps: the parameters are admissible, memory is canonical and lists only cells that
exist, at most one flag is set, and pc is in its range. -/
structure State.Inv (s : State) : Prop where
  admissible : s.cfg.Admissible
  canonical : s.mem.wf
  within : s.mem.within s.cfg.memSize
  exclusive : s.fl.exclusive
  pcInRange : s.pc ≤ s.pcBound

/-- The next cycle of `s` runs instruction `i`, whose opcode byte is `opcode`: the machine is Running, the three
fetched bytes exist, and they decode to `i` (40_engine.md R69 to R73). -/
def RunsNext (s : State) (opcode : Byte) (i : Instr) : Prop :=
  s.status = .running ∧ ∃ f, fetch s = .ok f ∧ f.opcode = opcode ∧
    decodeInstr s.cfg.opcodes f.opcode f.operandA f.operandB = .ok i

/-- Every register outside the list keeps its value. -/
def KeepsRegs (changed : List RegIdx) (s t : State) : Prop :=
  ∀ r, r ∉ changed → t.reg r = s.reg r

/-- Every byte of memory outside the listed addresses reads as before. -/
def KeepsMem (changed : List Nat) (s t : State) : Prop :=
  ∀ addr, addr ∉ changed → t.mem.read addr = s.mem.read addr

/-- The parameters and the fault part of the status, which no instruction changes. -/
def KeepsRest (s t : State) : Prop := t.cfg = s.cfg ∧ t.fault = s.fault

/-- The encoding line of an instruction's rule: its byte on this hardware, its format, `N` and `P` (R54, R58, R59). -/
def EncodedAs (k : Mnemonic) (byte : Byte) (f : Format) (n : Nat) (p : Bool) : Prop :=
  hardwareOpcodes.code k = byte ∧ k.format = f ∧ k.operandCount = n ∧ k.setsPc = p

/-- The line "engine: pc <- pc + n" of an instruction's rule: a cycle that runs `i` ends in the state the handler
left, with pc moved on by `n` (40_engine.md R75). -/
def EngineAdvances (i : Instr) (n : Nat) : Prop :=
  ∀ s op t, s.cfg.Admissible → RunsNext s op i → exec i s = .next t → step s = .next (t.setPc (t.pc + n))

/-- The line "engine: no advance" of an instruction's rule (R75, R80). -/
def EngineLeavesPc (i : Instr) : Prop :=
  ∀ s op t, s.cfg.Admissible → RunsNext s op i → exec i s = .next t → step s = .next t

/-- The line "IllegalRegister if operand_a >= 8" of an instruction's rule: a cycle that fetches the opcode of `k` with
such an operand faults, whatever the state and the other operand byte (R73). -/
def FaultsOnOperandA (k : Mnemonic) : Prop :=
  ∀ s f, s.cfg.Admissible → s.status = .running → fetch s = .ok f → f.opcode = s.cfg.opcodes.code k →
    regCount ≤ f.operandA.toNat → step s = .fault (.illegalRegister f.operandA)

/-- The same for `operand_b`, when `operand_a` names a register (R73). -/
def FaultsOnOperandB (k : Mnemonic) : Prop :=
  ∀ s f, s.cfg.Admissible → s.status = .running → fetch s = .ok f → f.opcode = s.cfg.opcodes.code k →
    f.operandA.toNat < regCount → regCount ≤ f.operandB.toNat → step s = .fault (.illegalRegister f.operandB)

/-- An instruction whose opcode is in one of the last two cells, or past the end, faults in its fetch or prefetch,
whatever it is (R69, R71). -/
def FaultsAtTopOfMemory : Prop :=
  ∀ s, s.status = .running → s.cfg.memSize ≤ s.pc + 2 → ∃ addr, step s = .fault (.memOutOfBounds addr)

/-- The first fault met in the order of R105, items 4 to 7: the opcode, the register fields, the stack access. -/
def firstFaultAfterFetch (s : State) (opcode a b : Byte) : Option Fault :=
  match s.cfg.opcodes.lookup opcode with
  | none =>
    match s.cfg.policy with
    | .fault => some (.unknownOpcode opcode)
    | .skip => none
  | some k =>
    if k.format ≠ .f0 ∧ regCount ≤ a.toNat then some (.illegalRegister a)
    else if k.format = .f2rr ∧ regCount ≤ b.toNat then some (.illegalRegister b)
    else if k ∈ [Mnemonic.psh, Mnemonic.cal] ∧ s.cfg.memSize ≤ (s.sp - 1).toNat then
      some (.memOutOfBounds (s.sp - 1).toNat)
    else if k ∈ [Mnemonic.pop, Mnemonic.ret] ∧ s.cfg.memSize ≤ s.sp.toNat then some (.memOutOfBounds s.sp.toNat)
    else none

/-- The fault of a Running machine's next cycle, if any: the first met in the order of R105. -/
def firstFault (s : State) : Option Fault :=
  if s.cfg.memSize ≤ s.pc then some (.memOutOfBounds s.pc)
  else if s.cfg.memSize ≤ s.pc + 1 then some (.memOutOfBounds (s.pc + 1))
  else if s.cfg.memSize ≤ s.pc + 2 then some (.memOutOfBounds (s.pc + 2))
  else firstFaultAfterFetch s (s.mem.read s.pc) (s.mem.read (s.pc + 1)) (s.mem.read (s.pc + 2))

/-- Two states that differ at most in the flags G and L. -/
def AgreeButGL (s t : State) : Prop :=
  t.cfg = s.cfg ∧ t.regs = s.regs ∧ t.pc = s.pc ∧ t.fl.e = s.fl.e ∧ t.running = s.running ∧ t.fault = s.fault ∧
    t.out = s.out ∧ t.mem = s.mem

/-- `run` does not read FL at `s`: with any other flags it has the same outcome up to FL, which it leaves as it was or
sets to the same value. -/
def IgnoresFlags (run : State → Result) (s : State) : Prop :=
  ∀ f : Flags,
    (∀ t, run s = .next t →
      ∃ g, run (s.setFl f) = .next (t.setFl g) ∧ (g = t.fl ∨ (t.fl = s.fl ∧ g = f))) ∧
    (∀ r, run s = .fault r → run (s.setFl f) = .fault r) ∧
    (∀ r, run s = .refused r → run (s.setFl f) = .refused r)

/-- None of the next `n` cycles from `s` runs CMP. -/
def NoCmpWithin (n : Nat) (s : State) : Prop :=
  ∀ m, m < n → ∀ op a b, ¬RunsNext (runFor m s) op (.cmp a b)

/-- "Before any CMP" (10_state.md R30): E is 0 after construction, and where it is 0 it stays 0 until a CMP runs. -/
def EqualClearBeforeCmp : Prop :=
  (∀ c, (State.construct c).fl.e = false) ∧
  ∀ n s, s.fl.e = false → NoCmpWithin n s → (runFor n s).fl.e = false

/-- The next cycle does not fault. -/
def State.safe (s : State) : Prop := ∀ r, step s ≠ .fault r

/-- A run of at most `n` cycles from `s` that raises no fault. -/
def SafeRun (n : Nat) (s : State) : Prop := ∀ r, (runFor n s).status ≠ .faulted r

end Sys2Proof.Machine
end

