-- ==== Sys2Proof/Certificates/Slice0/Obligations.lean ====
section
/-! DEFINITION. The statements about the model, for the provers. Each formalises the rules of spec/ it cites. -/

open Sys2Proof Sys2Proof.Machine

/-! ### Encoding -/

/-- Decoding the encoding of a well-formed instruction gives it back, and the bytes after it, under every admissible
opcode map (R54, R56, R60, R64). -/
def Obligations.DecodeOfEncode : Prop :=
  ∀ (m : OpcodeMap) (i : Instr) (rest : List Byte), m.Admissible → i.wellFormed = true →
    decode m (encode m i ++ rest) = .ok (i, rest)

/-- What decodes is well formed, and its bytes are its encoding: each byte sequence has one reading (R61, R62, R64). -/
def Obligations.EncodeOfDecode : Prop :=
  ∀ (m : OpcodeMap) (bytes rest : List Byte) (i : Instr), decode m bytes = .ok (i, rest) →
    i.wellFormed = true ∧ bytes = encode m i ++ rest

/-- One word per format and family, written out from R59 and R54, decodes to its instruction. -/
def Obligations.SampleWordsDecode : Prop :=
  decode hardwareOpcodes [0b10000010, 0b00000011, 0b11001000] = .ok (.ldi 3 200, []) ∧
  decode hardwareOpcodes [0b01000101, 0b00000010] = .ok (.psh 2, []) ∧
  decode hardwareOpcodes [0b00010001] = .ok (.ret, []) ∧
  decode hardwareOpcodes [0b10100111, 0b00000000, 0b00000001] = .ok (.cmp 0 1, []) ∧
  decode hardwareOpcodes [0b01010101, 0b00000010] = .ok (.jeq 2, [])

/-- A Running machine with room for three bytes at pc runs exactly the instruction that is stored there by its
opcode-table word (how a program comes to stand in memory: log entry 13). -/
def Obligations.PlacedWordRunsNext : Prop :=
  ∀ (s : State) (nbits w : Nat) (i : Instr), s.status = .running → s.mem.wf → s.pc + 2 < s.cfg.memSize →
    s.cfg.opcodes = hardwareOpcodes → decodeTableWord nbits w = some i →
    RunsNext (s.withFetchWord nbits w) (hardwareOpcodes.code i.mnemonic) i

/-! ### The cycle -/

/-- A cycle whose bytes decode to `i` is the handler of `i` followed by the advance: by `opcode[7:6] + 1` when bit 4
of the opcode is 0, not at all when it is 1; a fault of the handler is the cycle's (R75). -/
def Obligations.StepRunsDecodedInstruction : Prop :=
  ∀ (s : State) (op : Byte) (i : Instr), RunsNext s op i →
    (∀ t, exec i s = .next t →
      step s = .next (if bits 4 4 op = 0 then t.setPc (t.pc + (bits 7 6 op + 1)) else t)) ∧
    (∀ r, exec i s = .fault r → step s = .fault r)

/-- A cycle of a Running machine ends in a next state or a fault; the load ends in a loaded machine or a load error; a
Halted or Faulted machine has no next cycle (R15). -/
def Obligations.CycleEndsInNextOrFault : Prop :=
  (∀ s : State, s.status = .running → (∃ t, step s = .next t) ∨ ∃ r, step s = .fault r) ∧
  (∀ (image : List Nat) (s : State),
    (∃ t, loadImage image s = .next t) ∨ ∃ p, loadImage image s = .fault (.loadError p)) ∧
  (∀ (lines : List (List Char)) (s : State),
    (∃ t, loadText lines s = .next t) ∨ ∃ p, loadText lines s = .fault (.loadError p)) ∧
  (∀ s : State, s.status ≠ .running → (∀ t, step s ≠ .next t) ∧ ∀ r, step s ≠ .fault r)

/-- The fetch and both operand fetches happen in every cycle, in this order, each bounds-checked; an instruction in
one of the last two cells always faults (R69, R71). -/
def Obligations.FetchReadsThreeBytes : Prop :=
  (∀ s : State, s.pc + 2 < s.cfg.memSize →
    ∃ f, fetch s = .ok f ∧ f.opcode = s.mem.read s.pc ∧ f.operandA = s.mem.read (s.pc + 1) ∧
      f.operandB = s.mem.read (s.pc + 2)) ∧
  (∀ s : State, s.status = .running → s.cfg.memSize ≤ s.pc → step s = .fault (.memOutOfBounds s.pc)) ∧
  (∀ s : State, s.status = .running → s.pc < s.cfg.memSize → s.cfg.memSize ≤ s.pc + 1 →
    step s = .fault (.memOutOfBounds (s.pc + 1))) ∧
  (∀ s : State, s.status = .running → s.pc + 1 < s.cfg.memSize → s.cfg.memSize ≤ s.pc + 2 →
    step s = .fault (.memOutOfBounds (s.pc + 2)))

/-- An unknown opcode faults under the policy Fault; under Skip only pc changes, by the length when bit 4 is 0; a known
one never faults so (R72, R103). -/
def Obligations.UnknownOpcodeFollowsPolicy : Prop :=
  ∀ (s : State) (f : Fetched), s.status = .running → fetch s = .ok f →
    ((∀ k, f.opcode ≠ s.cfg.opcodes.code k) →
      (s.cfg.policy = .fault → step s = .fault (.unknownOpcode f.opcode)) ∧
      (s.cfg.policy = .skip →
        step s = .next (if bits 4 4 f.opcode = 0 then s.setPc (s.pc + (bits 7 6 f.opcode + 1)) else s))) ∧
    ((∃ k, f.opcode = s.cfg.opcodes.code k) → ∀ b, step s ≠ .fault (.unknownOpcode b))

/-- Under Skip an unknown opcode with bit 4 set hangs the machine: it stays Running in the same state for ever
(40_engine.md, the sentence of R72 the spec marks as derived). -/
def Obligations.SkippedSetsPcOpcodeHangs : Prop :=
  ∀ (s : State) (f : Fetched), s.status = .running → fetch s = .ok f → s.cfg.policy = .skip →
    (∀ k, f.opcode ≠ s.cfg.opcodes.code k) → bits 4 4 f.opcode = 1 → ∀ n, runFor n s = s

/-- A handler that is given a register operand outside 0..7 faults with the first such operand, so that no form is left
without an outcome. The decoder has refused such a word before; that the handler checks again is the model's reading of
R73 (log entry 11). -/
def Obligations.IllFormedOperandsFault : Prop :=
  ∀ (i : Instr) (s : State), i.wellFormed = false →
    ∃ b, i.regOperands.find? (fun x => decide (regCount ≤ x.toNat)) = some b ∧ exec i s = .fault (.illegalRegister b)

/-- Every register field of the format is checked before the handler runs, `operand_a` first; LDI's immediate and
unused bytes are not checked (R73, R102). -/
def Obligations.RegisterFieldsAreChecked : Prop :=
  ∀ (s : State) (f : Fetched) (k : Mnemonic), s.cfg.Admissible → s.status = .running → fetch s = .ok f →
    f.opcode = s.cfg.opcodes.code k →
    (k.format ≠ .f0 → regCount ≤ f.operandA.toNat → step s = .fault (.illegalRegister f.operandA)) ∧
    (k.format = .f2rr → f.operandA.toNat < regCount → regCount ≤ f.operandB.toNat →
      step s = .fault (.illegalRegister f.operandB)) ∧
    ((k.format = .f0 ∨ f.operandA.toNat < regCount) → (k.format = .f2rr → f.operandB.toNat < regCount) →
      ∃ i, i.mnemonic = k ∧ i.wellFormed = true ∧ RunsNext s f.opcode i)

/-- One cycle raises at most one fault, the first met in the order of the cycle's steps (R105). -/
def Obligations.FirstFaultWins : Prop :=
  ∀ s : State, s.status = .running → ∀ r, step s = .fault r ↔ firstFault s = some r

/-- A cycle that faults changes nothing but the status, and no cycle follows it (R100, R104). -/
def Obligations.FaultsArePreciseAndTerminal : Prop :=
  ∀ (s : State) (r : Fault), step s = .fault r →
    (cycle s).status = .faulted r ∧ (cycle s).regs = s.regs ∧ (cycle s).fl = s.fl ∧ (cycle s).mem = s.mem ∧
    (cycle s).out = s.out ∧ (cycle s).pc = s.pc ∧ (cycle s).running = s.running ∧ (cycle s).cfg = s.cfg ∧
    (∀ n, runFor n (cycle s) = cycle s) ∧ (∀ t, step (cycle s) ≠ .next t) ∧ ∀ q, step (cycle s) ≠ .fault q

/-- The status is Faulted when a fault has been raised, Halted with no fault and `running` 0, Running otherwise; the
first two are terminal: no cycle follows and nothing changes any more (R33). -/
def Obligations.EndedMachineStaysEnded : Prop :=
  ∀ s : State,
    (∀ r, s.fault = some r → s.status = .faulted r) ∧
    (s.fault = none → s.running = false → s.status = .halted) ∧
    (s.fault = none → s.running = true → s.status = .running) ∧
    (s.status ≠ .running → cycle s = s ∧ ∀ n, runFor n s = s)

/-- A run that has ended ended in one of two ways: some cycle of it ran HLT and the machine is Halted, or some cycle
of it raised a fault and the machine is Faulted with it (R77). -/
def Obligations.RunEndsByHltOrFault : Prop :=
  ∀ (s : State) (n : Nat), s.status = .running → (runFor n s).status ≠ .running →
    ((runFor n s).status = .halted ∧ ∃ k op, k < n ∧ RunsNext (runFor k s) op .hlt) ∨
    ∃ r, (runFor n s).status = .faulted r ∧ ∃ k, k < n ∧ step (runFor k s) = .fault r

/-- A cycle that meets a zero byte faults with UnknownOpcode under Fault, and passes one cell under Skip, when the
opcode bytes are R59's (R79). -/
def Obligations.ZeroMemoryIsUnknown : Prop :=
  ∀ s : State, s.status = .running → s.cfg.opcodes = hardwareOpcodes → s.pc + 2 < s.cfg.memSize →
    s.mem.read s.pc = 0 →
    (s.cfg.policy = .fault → step s = .fault (.unknownOpcode 0)) ∧
    (s.cfg.policy = .skip → step s = .next (s.setPc (s.pc + 1)))

/-- A byte a push stores is what the very next fetch of that cell reads (R50). -/
def Obligations.FetchSeesPushedByte : Prop :=
  ∀ (s t : State) (op a : Byte) (f : Fetched), s.Inv → RunsNext s op (.psh a) → step s = .next t →
    t.pc = (s.sp - 1).toNat → fetch t = .ok f →
    ∃ h : a.toNat < regCount, f.opcode = if (⟨a.toNat, h⟩ : RegIdx) = spIndex then s.sp - 1 else s.reg ⟨a.toNat, h⟩

/-! ### HLT, LDI, PRN -/

/-- HLT clears the running flag and changes nothing else; pc ends one past it and the loop stops (R81). -/
def Obligations.HltStopsTheMachine : Prop :=
  EncodedAs .hlt 0x01 .f0 0 false ∧
  (∀ s : State, ∃ t, exec .hlt s = .next t ∧ t.running = false ∧
    KeepsRegs [] s t ∧ KeepsMem [] s t ∧ t.fl = s.fl ∧ t.pc = s.pc ∧ t.out = s.out ∧ KeepsRest s t) ∧
  EngineAdvances .hlt 1 ∧
  (∀ (s : State) (op : Byte), s.cfg.Admissible → RunsNext s op .hlt →
    ∃ t, step s = .next t ∧ t.status = .halted ∧ t.pc = s.pc + 1 ∧ ∀ n, runFor n t = t) ∧
  FaultsAtTopOfMemory

/-- LDI stores the immediate, as it stands, in the named register and changes nothing else (R82). -/
def Obligations.LdiLoadsImmediate : Prop :=
  EncodedAs .ldi 0x82 .f2ri 2 false ∧
  (∀ (a imm : Byte) (s : State) (h : a.toNat < regCount), ∃ t,
    exec (.ldi a imm) s = .next t ∧ t.reg ⟨a.toNat, h⟩ = imm ∧
    KeepsRegs [⟨a.toNat, h⟩] s t ∧ KeepsMem [] s t ∧ t.fl = s.fl ∧ t.pc = s.pc ∧ t.out = s.out ∧
    t.running = s.running ∧ KeepsRest s t) ∧
  (∀ a imm, EngineAdvances (.ldi a imm) 3) ∧
  FaultsOnOperandA .ldi

/-- PRN appends the named register's value to the output and changes nothing else (R83). -/
def Obligations.PrnEmitsRegister : Prop :=
  EncodedAs .prn 0x47 .f1r 1 false ∧
  (∀ (a : Byte) (s : State) (h : a.toNat < regCount), ∃ t,
    exec (.prn a) s = .next t ∧ t.out = s.out ++ [s.reg ⟨a.toNat, h⟩] ∧
    KeepsRegs [] s t ∧ KeepsMem [] s t ∧ t.fl = s.fl ∧ t.pc = s.pc ∧ t.running = s.running ∧ KeepsRest s t) ∧
  (∀ a, EngineAdvances (.prn a) 2) ∧
  FaultsOnOperandA .prn

/-! ### The stack -/

/-- `push` decrements SP modulo 256 and writes the cell SP then names; a pop reads the cell SP names and increments SP
modulo 256; an SP at or above `MEM_SIZE` faults (R84). -/
def Obligations.StackPrimitives : Prop :=
  (∀ (s : State) (v : Byte), s.mem.wf → (s.sp.toNat + 255) % 256 < s.cfg.memSize → ∃ t,
    push s (fun _ => v) = .ok t ∧ t.sp.toNat = (s.sp.toNat + 255) % 256 ∧
    t.mem.read ((s.sp.toNat + 255) % 256) = v) ∧
  (∀ (s : State) (v : Byte), s.cfg.memSize ≤ (s.sp.toNat + 255) % 256 →
    push s (fun _ => v) = .error (.memOutOfBounds ((s.sp.toNat + 255) % 256))) ∧
  (∀ s : State, s.sp.toNat < s.cfg.memSize → popRead s = .ok (s.mem.read s.sp.toNat)) ∧
  (∀ s : State, s.cfg.memSize ≤ s.sp.toNat → popRead s = .error (.memOutOfBounds s.sp.toNat)) ∧
  (∀ s : State, s.incSp.sp.toNat = (s.sp.toNat + 1) % 256)

/-- PSH decrements SP and stores the register, read after the decrement, in the cell SP then names (R85). -/
def Obligations.PshPushesRegister : Prop :=
  EncodedAs .psh 0x45 .f1r 1 false ∧
  (∀ (a : Byte) (s : State) (h : a.toNat < regCount), s.mem.wf → s.pushAddr < s.cfg.memSize → ∃ t,
    exec (.psh a) s = .next t ∧ t.sp = s.sp - 1 ∧ s.pushAddr = (s.sp - 1).toNat ∧
    t.mem.read s.pushAddr = (if (⟨a.toNat, h⟩ : RegIdx) = spIndex then s.sp - 1 else s.reg ⟨a.toNat, h⟩) ∧
    KeepsRegs [spIndex] s t ∧ KeepsMem [s.pushAddr] s t ∧ t.fl = s.fl ∧ t.pc = s.pc ∧ t.out = s.out ∧
    t.running = s.running ∧ KeepsRest s t) ∧
  (∀ (a : Byte) (s : State), a.toNat < regCount → s.cfg.memSize ≤ s.pushAddr →
    exec (.psh a) s = .fault (.memOutOfBounds s.pushAddr)) ∧
  (∀ a, EngineAdvances (.psh a) 2) ∧
  FaultsOnOperandA .psh

/-- POP stores the top cell in the register and then increments SP; `POP R7` ends as the cell plus 1 (R86). -/
def Obligations.PopPopsRegister : Prop :=
  EncodedAs .pop 0x46 .f1r 1 false ∧
  (∀ (a : Byte) (s : State) (h : a.toNat < regCount), s.popAddr < s.cfg.memSize → ∃ t,
    exec (.pop a) s = .next t ∧ s.popAddr = s.sp.toNat ∧
    ((⟨a.toNat, h⟩ : RegIdx) ≠ spIndex →
      t.reg ⟨a.toNat, h⟩ = s.mem.read s.popAddr ∧ t.sp = s.sp + 1) ∧
    ((⟨a.toNat, h⟩ : RegIdx) = spIndex → t.sp = s.mem.read s.popAddr + 1) ∧
    KeepsRegs [⟨a.toNat, h⟩, spIndex] s t ∧ KeepsMem [] s t ∧ t.fl = s.fl ∧ t.pc = s.pc ∧ t.out = s.out ∧
    t.running = s.running ∧ KeepsRest s t) ∧
  (∀ (a : Byte) (s : State), a.toNat < regCount → s.cfg.memSize ≤ s.popAddr →
    exec (.pop a) s = .fault (.memOutOfBounds s.popAddr)) ∧
  (∀ a, EngineAdvances (.pop a) 2) ∧
  FaultsOnOperandA .pop

/-- CAL pushes `pc + 2` and sets pc to the register, read after the push; the return address fits a cell whenever CAL
runs (R87). -/
def Obligations.CalCallsSubroutine : Prop :=
  EncodedAs .cal 0x50 .f1r 1 true ∧
  (∀ (a : Byte) (s : State) (h : a.toNat < regCount), s.mem.wf → s.pushAddr < s.cfg.memSize → ∃ t,
    exec (.cal a) s = .next t ∧ t.sp = s.sp - 1 ∧ s.pushAddr = (s.sp - 1).toNat ∧
    (t.mem.read s.pushAddr).toNat = (s.pc + 2) % 256 ∧
    t.pc = (if (⟨a.toNat, h⟩ : RegIdx) = spIndex then s.sp - 1 else s.reg ⟨a.toNat, h⟩).toNat ∧
    KeepsRegs [spIndex] s t ∧ KeepsMem [s.pushAddr] s t ∧ t.fl = s.fl ∧ t.out = s.out ∧
    t.running = s.running ∧ KeepsRest s t) ∧
  (∀ (s : State) (op a : Byte), s.cfg.Admissible → RunsNext s op (.cal a) → s.pc + 2 ≤ 255) ∧
  (∀ (a : Byte) (s : State), a.toNat < regCount → s.cfg.memSize ≤ s.pushAddr →
    exec (.cal a) s = .fault (.memOutOfBounds s.pushAddr)) ∧
  (∀ a, EngineLeavesPc (.cal a)) ∧
  FaultsOnOperandA .cal ∧
  FaultsAtTopOfMemory

/-- RET pops the top cell into pc, whatever it holds (R88). -/
def Obligations.RetReturns : Prop :=
  EncodedAs .ret 0x11 .f0 0 true ∧
  (∀ s : State, s.popAddr < s.cfg.memSize → ∃ t,
    exec .ret s = .next t ∧ s.popAddr = s.sp.toNat ∧ t.pc = (s.mem.read s.popAddr).toNat ∧ t.sp = s.sp + 1 ∧
    KeepsRegs [spIndex] s t ∧ KeepsMem [] s t ∧ t.fl = s.fl ∧ t.out = s.out ∧ t.running = s.running ∧
    KeepsRest s t) ∧
  (∀ s : State, s.cfg.memSize ≤ s.popAddr → exec .ret s = .fault (.memOutOfBounds s.popAddr)) ∧
  EngineLeavesPc .ret ∧
  FaultsAtTopOfMemory

/-- PSH of a register other than R7 followed by POP of the same register restores every register, and the cell written
stays written (42_stack.md, the sentence of R86 the spec marks as derived). -/
def Obligations.PushThenPopRestores : Prop :=
  ∀ (a : Byte) (s : State) (h : a.toNat < regCount), s.mem.wf → (⟨a.toNat, h⟩ : RegIdx) ≠ spIndex →
    s.pushAddr < s.cfg.memSize → ∃ t u, exec (.psh a) s = .next t ∧ exec (.pop a) t = .next u ∧
      u.regs = s.regs ∧ u.mem.read s.pushAddr = s.reg ⟨a.toNat, h⟩ ∧ KeepsMem [s.pushAddr] s u

/-- After a CAL at address `c` and a subroutine that leaves SP and the return cell as the call left them, RET resumes at
`c + 2` with SP as before the call (42_stack.md, the sentence of R88 the spec marks as derived). -/
def Obligations.CallThenReturnResumes : Prop :=
  ∀ (s t v : State) (op a : Byte), s.Inv → RunsNext s op (.cal a) → step s = .next t →
    v.cfg = t.cfg → v.sp = t.sp → v.mem.read v.popAddr = t.mem.read t.popAddr →
    ∃ u, exec .ret v = .next u ∧ u.pc = s.pc + 2 ∧ u.sp = s.sp

/-! ### ADD, MUL, CMP and the flags -/

/-- ADD stores the sum modulo 256 in the first register and writes no flag (R91). -/
def Obligations.AddAddsRegisters : Prop :=
  EncodedAs .add 0xA0 .f2rr 2 false ∧
  (∀ (a b : Byte) (s : State) (ha : a.toNat < regCount) (hb : b.toNat < regCount), ∃ t,
    exec (.add a b) s = .next t ∧
    (t.reg ⟨a.toNat, ha⟩).toNat = ((s.reg ⟨a.toNat, ha⟩).toNat + (s.reg ⟨b.toNat, hb⟩).toNat) % 256 ∧
    KeepsRegs [⟨a.toNat, ha⟩] s t ∧ KeepsMem [] s t ∧ t.fl = s.fl ∧ t.pc = s.pc ∧ t.out = s.out ∧
    t.running = s.running ∧ KeepsRest s t) ∧
  (∀ a b, EngineAdvances (.add a b) 3) ∧
  FaultsOnOperandA .add ∧ FaultsOnOperandB .add

/-- MUL stores the low 8 bits of the full product in the first register and writes no flag (R92). -/
def Obligations.MulMultipliesRegisters : Prop :=
  EncodedAs .mul 0xA2 .f2rr 2 false ∧
  (∀ (a b : Byte) (s : State) (ha : a.toNat < regCount) (hb : b.toNat < regCount), ∃ t,
    exec (.mul a b) s = .next t ∧
    (t.reg ⟨a.toNat, ha⟩).toNat = (s.reg ⟨a.toNat, ha⟩).toNat * (s.reg ⟨b.toNat, hb⟩).toNat % 256 ∧
    KeepsRegs [⟨a.toNat, ha⟩] s t ∧ KeepsMem [] s t ∧ t.fl = s.fl ∧ t.pc = s.pc ∧ t.out = s.out ∧
    t.running = s.running ∧ KeepsRest s t) ∧
  (∀ a b, EngineAdvances (.mul a b) 3) ∧
  FaultsOnOperandA .mul ∧ FaultsOnOperandB .mul

/-- CMP sets exactly one flag by unsigned comparison, clears the other two and changes no register (R93). -/
def Obligations.CmpSetsOneFlag : Prop :=
  EncodedAs .cmp 0xA7 .f2rr 2 false ∧
  (∀ (a b : Byte) (s : State) (ha : a.toNat < regCount) (hb : b.toNat < regCount), ∃ t,
    exec (.cmp a b) s = .next t ∧
    ((s.reg ⟨a.toNat, ha⟩).toNat = (s.reg ⟨b.toNat, hb⟩).toNat → t.fl = { e := true, g := false, l := false }) ∧
    ((s.reg ⟨a.toNat, ha⟩).toNat > (s.reg ⟨b.toNat, hb⟩).toNat → t.fl = { e := false, g := true, l := false }) ∧
    ((s.reg ⟨a.toNat, ha⟩).toNat < (s.reg ⟨b.toNat, hb⟩).toNat → t.fl = { e := false, g := false, l := true }) ∧
    KeepsRegs [] s t ∧ KeepsMem [] s t ∧ t.pc = s.pc ∧ t.out = s.out ∧ t.running = s.running ∧ KeepsRest s t) ∧
  (∀ a b, EngineAdvances (.cmp a b) 3) ∧
  FaultsOnOperandA .cmp ∧ FaultsOnOperandB .cmp

/-- A selector other than ADD, MUL or CMP faults, and no instruction and no cycle can raise that fault (R94; that a
selector is a number is the model's choice, log entry 10). -/
def Obligations.UnsupportedAluOpUnreachable : Prop :=
  (∀ (n : Nat) (a b : RegIdx) (s : State), alu (.other n) a b s = .fault (.unsupportedAluOp n)) ∧
  (∀ (i : Instr) (s : State) (n : Nat), exec i s ≠ .fault (.unsupportedAluOp n)) ∧
  (∀ (s : State) (n : Nat), step s ≠ .fault (.unsupportedAluOp n))

/-- Only CMP writes FL, and it writes all three bits, exactly one to 1; no other instruction, no fault and nothing in
the engine changes FL (R28, R90). -/
def Obligations.OnlyCmpWritesFlags : Prop :=
  (∀ s : State, (cycle s).fl ≠ s.fl → ∃ op a b, RunsNext s op (.cmp a b)) ∧
  (∀ (i : Instr) (s t : State), exec i s = .next t → (∀ a b, i ≠ .cmp a b) → t.fl = s.fl) ∧
  (∀ (a b : Byte) (s t : State), exec (.cmp a b) s = .next t →
    t.fl = { e := true, g := false, l := false } ∨ t.fl = { e := false, g := true, l := false } ∨
    t.fl = { e := false, g := false, l := true })

/-- FL is read by JEQ and JNE and by nothing else: every other handler, and every cycle that runs neither, has the same
outcome whatever FL is. These two read only E: their outcome is the same whatever G and L are, and E does decide it
(R29). -/
def Obligations.OnlyConditionalJumpsReadFlags : Prop :=
  (∀ (i : Instr) (s : State), (∀ a, i ≠ .jeq a ∧ i ≠ .jne a) → IgnoresFlags (exec i) s) ∧
  (∀ s : State, (∀ op a, ¬RunsNext s op (.jeq a) ∧ ¬RunsNext s op (.jne a)) → IgnoresFlags step s) ∧
  (∀ (i : Instr) (a : Byte) (s : State) (f : Flags), i = .jeq a ∨ i = .jne a → f.e = s.fl.e →
    (∀ t, exec i s = .next t → exec i (s.setFl f) = .next (t.setFl f)) ∧
    (∀ r, exec i s = .fault r → exec i (s.setFl f) = .fault r)) ∧
  (∀ (i : Instr) (a : Byte) (s t u : State) (f : Flags) (h : a.toNat < regCount), i = .jeq a ∨ i = .jne a →
    f.e ≠ s.fl.e → (s.reg ⟨a.toNat, h⟩).toNat ≠ s.pc + 2 →
    exec i s = .next t → exec i (s.setFl f) = .next u → u.pc ≠ t.pc)

/-- G and L are never read: two states that differ only in them have the same outcome of every handler and of
every cycle, up to them. The spec marks this as its own inference (the last sentence of R29, from R97 and R98). -/
def Obligations.GreaterAndLessAreNeverRead : Prop :=
  ∀ (i : Instr) (s s' : State), AgreeButGL s s' →
    (∀ t, exec i s = .next t → ∃ t', exec i s' = .next t' ∧ AgreeButGL t t') ∧
    (∀ r, exec i s = .fault r → exec i s' = .fault r) ∧
    (∀ t, step s = .next t → ∃ t', step s' = .next t' ∧ AgreeButGL t t') ∧
    (∀ r, step s = .fault r → step s' = .fault r)

/-! ### JMP, JEQ, JNE -/

/-- JMP sets pc to the register; a JMP to its own address loops for ever without a fault (R96). -/
def Obligations.JmpJumps : Prop :=
  EncodedAs .jmp 0x54 .f1r 1 true ∧
  (∀ (a : Byte) (s : State) (h : a.toNat < regCount), ∃ t,
    exec (.jmp a) s = .next t ∧ t.pc = (s.reg ⟨a.toNat, h⟩).toNat ∧
    KeepsRegs [] s t ∧ KeepsMem [] s t ∧ t.fl = s.fl ∧ t.out = s.out ∧ t.running = s.running ∧ KeepsRest s t) ∧
  (∀ a, EngineLeavesPc (.jmp a)) ∧
  FaultsOnOperandA .jmp ∧
  (∀ (s : State) (op a : Byte) (h : a.toNat < regCount), s.cfg.Admissible → RunsNext s op (.jmp a) →
    (s.reg ⟨a.toNat, h⟩).toNat = s.pc → step s = .next s ∧ ∀ n, runFor n s = s)

/-- JEQ sets pc to the register when E is 1 and to `pc + 2` when it is 0, and E is 0 before any CMP (R97). -/
def Obligations.JeqJumpsOnEqual : Prop :=
  EncodedAs .jeq 0x55 .f1r 1 true ∧
  (∀ (a : Byte) (s : State) (h : a.toNat < regCount), ∃ t,
    exec (.jeq a) s = .next t ∧
    (s.fl.e = true → t.pc = (s.reg ⟨a.toNat, h⟩).toNat) ∧ (s.fl.e = false → t.pc = s.pc + 2) ∧
    KeepsRegs [] s t ∧ KeepsMem [] s t ∧ t.fl = s.fl ∧ t.out = s.out ∧ t.running = s.running ∧ KeepsRest s t) ∧
  (∀ a, EngineLeavesPc (.jeq a)) ∧
  FaultsOnOperandA .jeq ∧
  EqualClearBeforeCmp

/-- JNE sets pc to the register when E is 0 and to `pc + 2` when it is 1. So it is taken right after a CMP of unequal
registers, and before any CMP (R98). -/
def Obligations.JneJumpsOnNotEqual : Prop :=
  EncodedAs .jne 0x56 .f1r 1 true ∧
  (∀ (a : Byte) (s : State) (h : a.toNat < regCount), ∃ t,
    exec (.jne a) s = .next t ∧
    (s.fl.e = false → t.pc = (s.reg ⟨a.toNat, h⟩).toNat) ∧ (s.fl.e = true → t.pc = s.pc + 2) ∧
    KeepsRegs [] s t ∧ KeepsMem [] s t ∧ t.fl = s.fl ∧ t.out = s.out ∧ t.running = s.running ∧ KeepsRest s t) ∧
  (∀ a, EngineLeavesPc (.jne a)) ∧
  FaultsOnOperandA .jne ∧
  EqualClearBeforeCmp ∧
  (∀ (s : State) (op op' a b c : Byte) (ha : a.toNat < regCount) (hb : b.toNat < regCount) (hc : c.toNat < regCount),
    s.cfg.Admissible → RunsNext s op (.cmp a b) → RunsNext (cycle s) op' (.jne c) →
    s.reg ⟨a.toNat, ha⟩ ≠ s.reg ⟨b.toNat, hb⟩ → (runFor 2 s).pc = (s.reg ⟨c.toNat, hc⟩).toNat)

/-! ### The whole machine -/

/-- With 256 cells every well-formed instruction completes in every state: no handler can fault (R39, R101). -/
def Obligations.EveryHandlerCompletes : Prop :=
  ∀ (i : Instr) (s : State), i.wellFormed = true → s.cfg.memSize = 256 → ∃ t, exec i s = .next t

/-- Only PRN emits, once per execution; nothing else changes the output, which is empty at reset (R31). -/
def Obligations.OnlyPrnEmits : Prop :=
  (∀ s : State, (cycle s).out ≠ s.out → ∃ op a, RunsNext s op (.prn a)) ∧
  (∀ (s : State) (op a : Byte), RunsNext s op (.prn a) →
    ∃ h : a.toNat < regCount, (cycle s).out = s.out ++ [s.reg ⟨a.toNat, h⟩]) ∧
  (∀ c, (State.construct c).out = [])

/-- `running` is 1 when the run starts, cycles run only while it is 1, only HLT clears it and no instruction sets it (R32). -/
def Obligations.OnlyHltClearsRunning : Prop :=
  (∀ s : State, s.startRun.running = true) ∧
  (∀ s : State, s.running = false → ∀ t, step s ≠ .next t) ∧
  (∀ s : State, (cycle s).running ≠ s.running →
    s.running = true ∧ (cycle s).running = false ∧ ∃ op, RunsNext s op .hlt) ∧
  (∀ (i : Instr) (s t : State), exec i s = .next t → s.running = false → t.running = false)

/-- A byte of memory changes only in a cycle that runs PSH or CAL, and only the one SP names after the decrement
(R37). -/
def Obligations.OnlyPushesWriteMemory : Prop :=
  ∀ (s : State) (addr : Nat), (cycle s).mem.read addr ≠ s.mem.read addr →
    addr = (s.sp - 1).toNat ∧ ∃ op a, RunsNext s op (.psh a) ∨ RunsNext s op (.cal a)

/-- A register other than SP changes only in a cycle that runs LDI, POP, ADD or MUL with that register as
`operand_a` (R18, R20). -/
def Obligations.OnlyNamedRegistersChange : Prop :=
  ∀ (s : State) (r : RegIdx), r ≠ spIndex → (cycle s).reg r ≠ s.reg r →
    ∃ op a b, a.toNat = r.val ∧
      (RunsNext s op (.ldi a b) ∨ RunsNext s op (.pop a) ∨ RunsNext s op (.add a b) ∨ RunsNext s op (.mul a b))

/-- How each instruction moves pc: the eight whose bit 4 is 0 by their length, the others to their target or, for a
conditional jump not taken, by 2 (R24). -/
def Obligations.PcMovesByInstruction : Prop :=
  ∀ (s t : State) (op : Byte) (i : Instr), s.cfg.Admissible → RunsNext s op i → step s = .next t →
    match i with
    | .hlt => t.pc = s.pc + 1
    | .ldi _ _ | .add _ _ | .mul _ _ | .cmp _ _ => t.pc = s.pc + 3
    | .prn _ | .psh _ | .pop _ => t.pc = s.pc + 2
    | .cal a => ∃ h : a.toNat < regCount,
        t.pc = (if (⟨a.toNat, h⟩ : RegIdx) = spIndex then s.sp - 1 else s.reg ⟨a.toNat, h⟩).toNat
    | .ret => t.pc = (s.mem.read s.sp.toNat).toNat
    | .jmp a => ∃ h : a.toNat < regCount, t.pc = (s.reg ⟨a.toNat, h⟩).toNat
    | .jeq a => ∃ h : a.toNat < regCount,
        t.pc = if s.fl.e = true then (s.reg ⟨a.toNat, h⟩).toNat else s.pc + 2
    | .jne a => ∃ h : a.toNat < regCount,
        t.pc = if s.fl.e = true then s.pc + 2 else (s.reg ⟨a.toNat, h⟩).toNat

/-- With 256 cells and the policy Fault pc stays in 0..256, reaches 256 only by sequential advance, and no
instruction that sets pc itself writes more than 255 (10_state.md R22, at this hardware's parameters). -/
def Obligations.PcStaysInRange : Prop :=
  ∀ s t : State, s.cfg.Admissible → s.cfg.memSize = 256 → s.cfg.policy = .fault → step s = .next t →
    t.pc ≤ 256 ∧ (t.pc = 256 → t.pc = s.pc + lengthField (s.mem.read s.pc)) ∧
    (setsPcField (s.mem.read s.pc) = true → t.pc ≤ 255)

/-- Any one-cell access at or above `MEM_SIZE` faults; with 256 cells that happens exactly in the fetch and prefetch of
an instruction at 254 or above (60_exceptions.md R101, whose second sentence the spec marks as derived). -/
def Obligations.OutOfBoundsOnlyAtTop : Prop :=
  (∀ (s : State) (addr : Nat), s.cfg.memSize ≤ addr → memRead s addr = .error (.memOutOfBounds addr) ∧
    ∀ v, memWrite s addr v = .error (.memOutOfBounds addr)) ∧
  (∀ s : State, s.cfg.memSize = 256 → s.status = .running →
    ((∃ addr, step s = .fault (.memOutOfBounds addr)) ↔ 254 ≤ s.pc))

/-- The construction parameters are fixed: no step changes them (R127). -/
def Obligations.ParametersNeverChange : Prop :=
  (∀ s t : State, step s = .next t → t.cfg = s.cfg) ∧ ∀ (s : State) (n : Nat), (runFor n s).cfg = s.cfg

/-- Every step keeps the invariant: admissible parameters, canonical memory that lists only cells that exist, at most
one flag set, pc in its range (`State.Inv`; the range of pc in two corners is the model's reading, log entries 6 and
7). -/
def Obligations.StepKeepsInvariant : Prop :=
  ∀ s t : State, s.Inv → step s = .next t → t.Inv

/-- The machine right after construction with admissible parameters, this hardware's reset state among them, meets the
invariant, and a load that succeeds keeps it. -/
def Obligations.ResetMeetsInvariant : Prop :=
  State.reset.Inv ∧ (∀ c : Config, c.Admissible → (State.construct c).Inv) ∧
  (∀ (image : List Nat) (s t : State), s.Inv → loadImage image s = .next t → t.Inv)

/-! ### Reset, load and text forms -/

/-- The state after reset and load, before the first cycle: registers 0 but R7 which is `SP_RESET`, pc 0, no flag,
running 1, Running, empty output, the image from address 0 and 0 in every other cell; `SP_RESET` is 0 here (R19, R116,
R120). -/
def Obligations.LoadedMachineBeforeFirstCycle : Prop :=
  (∀ (c : Config) (image : List Nat), image.length ≤ c.memSize → (∀ v ∈ image, v < 256) →
    ∃ t, loadImage image (State.construct c) = .next t ∧
      (∀ r, t.startRun.reg r = if r = spIndex then c.spReset else 0) ∧ t.startRun.pc = 0 ∧
      t.startRun.fl = { e := false, g := false, l := false } ∧ t.startRun.running = true ∧
      t.startRun.status = .running ∧ t.startRun.out = [] ∧ t.startRun.cfg = c ∧
      (∀ (k : Nat) (h : k < image.length), (t.startRun.mem.read k).toNat = image[k]) ∧
      (∀ k, image.length ≤ k → t.startRun.mem.read k = 0)) ∧
  State.reset = State.construct hardwareConfig ∧ hardwareConfig.spReset = 0 ∧ hardwareConfig.memSize = 256

/-- An image longer than `MEM_SIZE` or with a value above 255 is a load error and nothing else is (R118). -/
def Obligations.BadImageIsLoadError : Prop :=
  ∀ (image : List Nat) (s : State),
    (∃ p, loadImage image s = .fault (.loadError p)) ↔ (s.cfg.memSize < image.length ∨ ∃ v ∈ image, 255 < v)

/-- A text with a malformed line fails the load: the machine is Faulted with LoadError and such a line, and no cycle
runs (R121; the line's number and text as the info are the model's choice, log entry 9). -/
def Obligations.MalformedTextNeverRuns : Prop :=
  ∀ (c : Config) (lines : List (List Char)) (line : List Char), line ∈ lines → parseLine line = .malformed →
    (∃ n text, (boot c lines).status = .faulted (.loadError (.malformedLine n text)) ∧ lines[n]? = some text ∧
      parseLine text = .malformed) ∧
    ∀ n, runFor n (boot c lines) = boot c lines

/-- A line that is, between blanks and before a comment, the 8-digit literal of a byte contributes that byte; a line
with nothing there contributes none; any other is malformed and fails the load; the contributing lines give the image in
order (R119; which characters are blank is the model's choice, log entry 8). -/
def Obligations.ImageLinesAreRead : Prop :=
  (∀ (v : Byte) (before after comment : List Char), (∀ c ∈ before, isBlank c = true) →
    (∀ c ∈ after, isBlank c = true) →
    parseLine (before ++ byteLine v ++ after) = .byte v ∧
    parseLine (before ++ byteLine v ++ after ++ '#' :: comment) = .byte v ∧
    parseLine before = .blank ∧ parseLine (before ++ '#' :: comment) = .blank) ∧
  (∀ (line : List Char) (v : Byte), parseLine line = .byte v → strippedLine line = byteLine v) ∧
  (∀ line : List Char, parseLine line = .blank → strippedLine line = []) ∧
  (∀ (n : Nat) (lines : List (List Char)),
    ((∃ image, parseLines n lines = .ok image) ↔ ∀ line ∈ lines, parseLine line ≠ .malformed) ∧
    ∀ image, parseLines n lines = .ok image →
      image.map LineForm.byte = (lines.map parseLine).filter fun f => f != LineForm.blank)

/-- The canonical assembly text of a well-formed instruction assembles to it (R65), and `CALL` is read as `CAL` (R66);
the details R65 leaves open are the model's choice, log entry 15. -/
def Obligations.AssemblyRoundTrip : Prop :=
  (∀ i : Instr, i.wellFormed = true → assembleLine (instrText i) = some i) ∧
  (∀ operands : List Char, assembleLine ('C' :: 'A' :: 'L' :: 'L' :: ' ' :: operands) =
    assembleLine ('C' :: 'A' :: 'L' :: ' ' :: operands))
end

