-- ==== Sys2Proof/Laws/Decode.lean ====
section
/-! SUPPORT. The laws of the opcode map and of the decoder's lookup. -/

namespace Sys2Proof

theorem Mnemonic.mem_all (k : Mnemonic) : k ∈ Mnemonic.all := by cases k <;> decide

/-- Under an admissible map every mnemonic has the operand count and the sets-PC bit of R58. -/
theorem OpcodeMap.Admissible.fields {m : OpcodeMap} (h : m.Admissible) (k : Mnemonic) :
    operandCountField (m.code k) = k.operandCount ∧ setsPcField (m.code k) = k.setsPc :=
  h.1 k k.mem_all

/-- An admissible map gives distinct mnemonics distinct bytes (R60). -/
theorem OpcodeMap.Admissible.injective {m : OpcodeMap} (h : m.Admissible) {j k : Mnemonic}
    (e : m.code j = m.code k) : j = k :=
  List.inj_on_of_nodup_map h.2 j.mem_all k.mem_all e

theorem OpcodeMap.code_of_lookup {m : OpcodeMap} {b : Byte} {k : Mnemonic} (h : m.lookup b = some k) :
    m.code k = b := by
  have := List.find?_some h
  simpa using this

/-- The lookup under an admissible map: exact match of the whole byte (R64). -/
theorem OpcodeMap.Admissible.lookup_eq_some_iff {m : OpcodeMap} (h : m.Admissible) {b : Byte} {k : Mnemonic} :
    m.lookup b = some k ↔ m.code k = b := by
  refine ⟨OpcodeMap.code_of_lookup, fun e => ?_⟩
  cases hl : m.lookup b with
  | none =>
    have := List.find?_eq_none.1 hl k k.mem_all
    simp [e] at this
  | some j => rw [h.injective ((OpcodeMap.code_of_lookup hl).trans e.symm)]

theorem hardwareOpcodes_admissible : hardwareOpcodes.Admissible := by decide

end Sys2Proof
end

