-- ==== Sys2Proof/Laws/Memory.lean ====
section
/-! SUPPORT. The laws of memory: a read after a write, the canonical form, the cells that exist. -/

namespace Sys2Proof.Machine

@[simp] theorem Memory.read_nil (a : Nat) : Memory.read [] a = unlistedByte := rfl

/-- A write leaves every other cell alone, whatever the list looks like. -/
theorem Memory.read_write_other (m : Memory) {a b : Nat} (v : Byte) (h : b ≠ a) :
    (m.write a v).read b = m.read b := by
  induction m with
  | nil =>
    simp only [Memory.write]
    split <;> simp [Memory.read, Ne.symm h]
  | cons c rest ih =>
    obtain ⟨k, w⟩ := c
    simp only [Memory.write]
    split
    · split <;> simp [Memory.read, Ne.symm h]
    · split
      · rename_i hk
        subst hk
        split <;> simp [Memory.read, Ne.symm h]
      · simp only [Memory.read, ih]

/-- A cell below every listed one is unlisted. -/
theorem Memory.read_of_lt (m : Memory) {a : Nat} (h : ∀ c ∈ m, a < c.1) : m.read a = unlistedByte := by
  induction m with
  | nil => rfl
  | cons c rest ih =>
    obtain ⟨k, w⟩ := c
    have hk : a < k := h (k, w) (by simp)
    simp only [Memory.read]
    rw [if_neg (by omega)]
    exact ih fun c hc => h c (by simp [hc])

theorem Memory.wf_cons {k : Nat} {w : Byte} {rest : Memory} (h : Memory.wf ((k, w) :: rest)) :
    (∀ c ∈ rest, k < c.1) ∧ w ≠ unlistedByte ∧ Memory.wf rest := by
  obtain ⟨hs, hz⟩ := h
  simp only [List.map_cons, List.pairwise_cons, List.mem_map] at hs
  refine ⟨fun c hc => hs.1 c.1 ⟨c, hc, rfl⟩, hz (k, w) (by simp), hs.2, fun c hc => hz c (by simp [hc])⟩

theorem Memory.wf_cons_of {k : Nat} {w : Byte} {rest : Memory} (hk : ∀ c ∈ rest, k < c.1)
    (hw : w ≠ unlistedByte) (hr : Memory.wf rest) : Memory.wf ((k, w) :: rest) := by
  refine ⟨?_, ?_⟩
  · simp only [List.map_cons, List.pairwise_cons, List.mem_map]
    refine ⟨?_, hr.1⟩
    rintro _ ⟨c, hc, rfl⟩
    exact hk c hc
  · intro c hc
    rcases List.mem_cons.1 hc with rfl | hc
    · exact hw
    · exact hr.2 c hc

/-- A read after a write to the same cell gives the value written. -/
theorem Memory.read_write_same (m : Memory) (a : Nat) (v : Byte) (h : m.wf) : (m.write a v).read a = v := by
  induction m with
  | nil =>
    simp only [Memory.write]
    split <;> simp_all [Memory.read]
  | cons c rest ih =>
    obtain ⟨k, w⟩ := c
    obtain ⟨hk, -, hr⟩ := Memory.wf_cons h
    simp only [Memory.write]
    split
    · split
      · rename_i hv
        subst hv
        apply Memory.read_of_lt
        intro c hc
        rcases List.mem_cons.1 hc with rfl | hc
        · assumption
        · have := hk c hc
          omega
      · simp [Memory.read]
    · split
      · rename_i ha
        subst ha
        split
        · rename_i hv
          subst hv
          exact Memory.read_of_lt rest hk
        · simp [Memory.read]
      · rename_i hne
        simp only [Memory.read]
        rw [if_neg (Ne.symm hne)]
        exact ih hr

/-- A cell listed after a write was listed before or is the one written. -/
theorem Memory.mem_write (m : Memory) (a : Nat) (v : Byte) {c : Host.Cell} (h : c ∈ m.write a v) :
    c ∈ m ∨ c = (a, v) := by
  induction m with
  | nil =>
    simp only [Memory.write] at h
    split at h <;> simp_all
  | cons d rest ih =>
    obtain ⟨k, w⟩ := d
    simp only [Memory.write] at h
    split at h
    · split at h
      · exact .inl h
      · rcases List.mem_cons.1 h with h | h
        · exact .inr h
        · exact .inl h
    · split at h
      · split at h
        · exact .inl (List.mem_cons_of_mem _ h)
        · rcases List.mem_cons.1 h with h | h
          · exact .inr h
          · exact .inl (List.mem_cons_of_mem _ h)
      · rcases List.mem_cons.1 h with h | h
        · exact .inl (h ▸ List.mem_cons_self)
        · rcases ih h with h | h
          · exact .inl (List.mem_cons_of_mem _ h)
          · exact .inr h

/-- A write keeps the canonical form. -/
theorem Memory.write_wf (m : Memory) (a : Nat) (v : Byte) (h : m.wf) : (m.write a v).wf := by
  induction m with
  | nil =>
    simp only [Memory.write]
    split
    · exact h
    · exact Memory.wf_cons_of (by simp) (by assumption) h
  | cons c rest ih =>
    obtain ⟨k, w⟩ := c
    obtain ⟨hk, hw, hr⟩ := Memory.wf_cons h
    simp only [Memory.write]
    split
    · split
      · exact h
      · refine Memory.wf_cons_of ?_ (by assumption) h
        intro c hc
        rcases List.mem_cons.1 hc with rfl | hc
        · assumption
        · have := hk c hc
          omega
    · split
      · rename_i ha
        subst ha
        split
        · exact hr
        · exact Memory.wf_cons_of hk (by assumption) hr
      · refine Memory.wf_cons_of ?_ hw (ih hr)
        intro c hc
        rcases Memory.mem_write rest a v hc with hc | rfl
        · exact hk c hc
        · show k < a
          omega

/-- A write to a cell that exists lists no other. -/
theorem Memory.write_within (m : Memory) {size a : Nat} (v : Byte) (h : m.within size) (ha : a < size) :
    (m.write a v).within size := by
  intro c hc
  rcases Memory.mem_write m a v hc with hc | rfl
  · exact h c hc
  · exact ha

theorem Memory.writeFrom_wf (m : Memory) (a : Nat) (bytes : List Byte) (h : m.wf) : (m.writeFrom a bytes).wf := by
  induction bytes generalizing m a with
  | nil => exact h
  | cons v rest ih => exact ih _ _ (Memory.write_wf m a v h)

theorem Memory.writeFrom_within (m : Memory) {size a : Nat} (bytes : List Byte) (h : m.within size)
    (ha : a + bytes.length ≤ size) : (m.writeFrom a bytes).within size := by
  induction bytes generalizing m a with
  | nil => exact h
  | cons v rest ih =>
    simp only [List.length_cons] at ha
    exact ih _ (Memory.write_within m v h (by omega)) (by omega)

/-- A load leaves the cells below its first address alone. -/
theorem Memory.read_writeFrom_below (m : Memory) {a b : Nat} (bytes : List Byte) (h : b < a) :
    (m.writeFrom a bytes).read b = m.read b := by
  induction bytes generalizing m a with
  | nil => rfl
  | cons v rest ih =>
    simp only [Memory.writeFrom]
    rw [ih _ (by omega), Memory.read_write_other m v (by omega)]

theorem pokeByte_wf (m : Memory) (size a : Nat) (v : Byte) (h : m.wf) : (pokeByte m size a v).wf := by
  unfold pokeByte
  split
  · exact Memory.write_wf m a v h
  · exact h

theorem pokeByte_within (m : Memory) (size a : Nat) (v : Byte) (h : m.within size) :
    (pokeByte m size a v).within size := by
  unfold pokeByte
  split
  · exact Memory.write_within m v h (by assumption)
  · exact h

/-- The memory after reset is canonical. -/
theorem reset_mem_wf : State.reset.mem.wf := by decide

end Sys2Proof.Machine
end

