-- ==== Sys2Proof/Laws/State.lean ====
section
/-! SUPPORT. One lemma per field per update of State, and what the accessors read after each update. -/

namespace Sys2Proof.Machine

variable (s : State)
@[simp] theorem State.setReg_cfg (i : RegIdx) (v : Byte) : (s.setReg i v).cfg = s.cfg := rfl
@[simp] theorem State.setReg_pc (i : RegIdx) (v : Byte) : (s.setReg i v).pc = s.pc := rfl
@[simp] theorem State.setReg_fl (i : RegIdx) (v : Byte) : (s.setReg i v).fl = s.fl := rfl
@[simp] theorem State.setReg_running (i : RegIdx) (v : Byte) : (s.setReg i v).running = s.running := rfl
@[simp] theorem State.setReg_fault (i : RegIdx) (v : Byte) : (s.setReg i v).fault = s.fault := rfl
@[simp] theorem State.setReg_out (i : RegIdx) (v : Byte) : (s.setReg i v).out = s.out := rfl
@[simp] theorem State.setReg_mem (i : RegIdx) (v : Byte) : (s.setReg i v).mem = s.mem := rfl

@[simp] theorem State.setPc_cfg (target : Nat) : (s.setPc target).cfg = s.cfg := rfl
@[simp] theorem State.setPc_regs (target : Nat) : (s.setPc target).regs = s.regs := rfl
@[simp] theorem State.setPc_pc (target : Nat) : (s.setPc target).pc = target := rfl
@[simp] theorem State.setPc_fl (target : Nat) : (s.setPc target).fl = s.fl := rfl
@[simp] theorem State.setPc_running (target : Nat) : (s.setPc target).running = s.running := rfl
@[simp] theorem State.setPc_fault (target : Nat) : (s.setPc target).fault = s.fault := rfl
@[simp] theorem State.setPc_out (target : Nat) : (s.setPc target).out = s.out := rfl
@[simp] theorem State.setPc_mem (target : Nat) : (s.setPc target).mem = s.mem := rfl
@[simp] theorem State.setPc_reg (target : Nat) (j : RegIdx) : (s.setPc target).reg j = s.reg j := rfl
@[simp] theorem State.setPc_sp (target : Nat) : (s.setPc target).sp = s.sp := rfl

@[simp] theorem State.setFl_cfg (f : Flags) : (s.setFl f).cfg = s.cfg := rfl
@[simp] theorem State.setFl_regs (f : Flags) : (s.setFl f).regs = s.regs := rfl
@[simp] theorem State.setFl_pc (f : Flags) : (s.setFl f).pc = s.pc := rfl
@[simp] theorem State.setFl_fl (f : Flags) : (s.setFl f).fl = f := rfl
@[simp] theorem State.setFl_running (f : Flags) : (s.setFl f).running = s.running := rfl
@[simp] theorem State.setFl_fault (f : Flags) : (s.setFl f).fault = s.fault := rfl
@[simp] theorem State.setFl_out (f : Flags) : (s.setFl f).out = s.out := rfl
@[simp] theorem State.setFl_mem (f : Flags) : (s.setFl f).mem = s.mem := rfl
@[simp] theorem State.setFl_reg (f : Flags) (j : RegIdx) : (s.setFl f).reg j = s.reg j := rfl
@[simp] theorem State.setFl_sp (f : Flags) : (s.setFl f).sp = s.sp := rfl

@[simp] theorem State.emit_cfg (v : Byte) : (s.emit v).cfg = s.cfg := rfl
@[simp] theorem State.emit_regs (v : Byte) : (s.emit v).regs = s.regs := rfl
@[simp] theorem State.emit_pc (v : Byte) : (s.emit v).pc = s.pc := rfl
@[simp] theorem State.emit_fl (v : Byte) : (s.emit v).fl = s.fl := rfl
@[simp] theorem State.emit_running (v : Byte) : (s.emit v).running = s.running := rfl
@[simp] theorem State.emit_fault (v : Byte) : (s.emit v).fault = s.fault := rfl
@[simp] theorem State.emit_out (v : Byte) : (s.emit v).out = s.out ++ [v] := rfl
@[simp] theorem State.emit_mem (v : Byte) : (s.emit v).mem = s.mem := rfl
@[simp] theorem State.emit_reg (v : Byte) (j : RegIdx) : (s.emit v).reg j = s.reg j := rfl
@[simp] theorem State.emit_sp (v : Byte) : (s.emit v).sp = s.sp := rfl

@[simp] theorem State.halt_cfg : (s.halt).cfg = s.cfg := rfl
@[simp] theorem State.halt_regs : (s.halt).regs = s.regs := rfl
@[simp] theorem State.halt_pc : (s.halt).pc = s.pc := rfl
@[simp] theorem State.halt_fl : (s.halt).fl = s.fl := rfl
@[simp] theorem State.halt_running : (s.halt).running = false := rfl
@[simp] theorem State.halt_fault : (s.halt).fault = s.fault := rfl
@[simp] theorem State.halt_out : (s.halt).out = s.out := rfl
@[simp] theorem State.halt_mem : (s.halt).mem = s.mem := rfl
@[simp] theorem State.halt_reg (j : RegIdx) : (s.halt).reg j = s.reg j := rfl
@[simp] theorem State.halt_sp : (s.halt).sp = s.sp := rfl

@[simp] theorem State.enterFault_cfg (r : Fault) : (s.enterFault r).cfg = s.cfg := rfl
@[simp] theorem State.enterFault_regs (r : Fault) : (s.enterFault r).regs = s.regs := rfl
@[simp] theorem State.enterFault_pc (r : Fault) : (s.enterFault r).pc = s.pc := rfl
@[simp] theorem State.enterFault_fl (r : Fault) : (s.enterFault r).fl = s.fl := rfl
@[simp] theorem State.enterFault_running (r : Fault) : (s.enterFault r).running = s.running := rfl
@[simp] theorem State.enterFault_fault (r : Fault) : (s.enterFault r).fault = some r := rfl
@[simp] theorem State.enterFault_out (r : Fault) : (s.enterFault r).out = s.out := rfl
@[simp] theorem State.enterFault_mem (r : Fault) : (s.enterFault r).mem = s.mem := rfl
@[simp] theorem State.enterFault_reg (r : Fault) (j : RegIdx) : (s.enterFault r).reg j = s.reg j := rfl
@[simp] theorem State.enterFault_sp (r : Fault) : (s.enterFault r).sp = s.sp := rfl

@[simp] theorem State.setMem_cfg (m : Memory) : (s.setMem m).cfg = s.cfg := rfl
@[simp] theorem State.setMem_regs (m : Memory) : (s.setMem m).regs = s.regs := rfl
@[simp] theorem State.setMem_pc (m : Memory) : (s.setMem m).pc = s.pc := rfl
@[simp] theorem State.setMem_fl (m : Memory) : (s.setMem m).fl = s.fl := rfl
@[simp] theorem State.setMem_running (m : Memory) : (s.setMem m).running = s.running := rfl
@[simp] theorem State.setMem_fault (m : Memory) : (s.setMem m).fault = s.fault := rfl
@[simp] theorem State.setMem_out (m : Memory) : (s.setMem m).out = s.out := rfl
@[simp] theorem State.setMem_mem (m : Memory) : (s.setMem m).mem = m := rfl
@[simp] theorem State.setMem_reg (m : Memory) (j : RegIdx) : (s.setMem m).reg j = s.reg j := rfl
@[simp] theorem State.setMem_sp (m : Memory) : (s.setMem m).sp = s.sp := rfl

@[simp] theorem State.startRun_cfg : (s.startRun).cfg = s.cfg := rfl
@[simp] theorem State.startRun_regs : (s.startRun).regs = s.regs := rfl
@[simp] theorem State.startRun_pc : (s.startRun).pc = s.pc := rfl
@[simp] theorem State.startRun_fl : (s.startRun).fl = s.fl := rfl
@[simp] theorem State.startRun_running : (s.startRun).running = true := rfl
@[simp] theorem State.startRun_fault : (s.startRun).fault = s.fault := rfl
@[simp] theorem State.startRun_out : (s.startRun).out = s.out := rfl
@[simp] theorem State.startRun_mem : (s.startRun).mem = s.mem := rfl
@[simp] theorem State.startRun_reg (j : RegIdx) : (s.startRun).reg j = s.reg j := rfl
@[simp] theorem State.startRun_sp : (s.startRun).sp = s.sp := rfl

@[simp] theorem State.decSp_cfg : (s.decSp).cfg = s.cfg := rfl
@[simp] theorem State.decSp_pc : (s.decSp).pc = s.pc := rfl
@[simp] theorem State.decSp_fl : (s.decSp).fl = s.fl := rfl
@[simp] theorem State.decSp_running : (s.decSp).running = s.running := rfl
@[simp] theorem State.decSp_fault : (s.decSp).fault = s.fault := rfl
@[simp] theorem State.decSp_out : (s.decSp).out = s.out := rfl
@[simp] theorem State.decSp_mem : (s.decSp).mem = s.mem := rfl

@[simp] theorem State.incSp_cfg : (s.incSp).cfg = s.cfg := rfl
@[simp] theorem State.incSp_pc : (s.incSp).pc = s.pc := rfl
@[simp] theorem State.incSp_fl : (s.incSp).fl = s.fl := rfl
@[simp] theorem State.incSp_running : (s.incSp).running = s.running := rfl
@[simp] theorem State.incSp_fault : (s.incSp).fault = s.fault := rfl
@[simp] theorem State.incSp_out : (s.incSp).out = s.out := rfl
@[simp] theorem State.incSp_mem : (s.incSp).mem = s.mem := rfl

@[simp] theorem State.setReg_reg (i j : RegIdx) (v : Byte) :
    (s.setReg i v).reg j = if i = j then v else s.reg j := by
  simp only [State.reg, State.setReg, Vector.getElem_set, Fin.ext_iff]

theorem State.setReg_reg_same (i : RegIdx) (v : Byte) : (s.setReg i v).reg i = v := by simp

theorem State.setReg_reg_other {i j : RegIdx} (v : Byte) (h : j ≠ i) : (s.setReg i v).reg j = s.reg j := by
  simp [Ne.symm h]

theorem State.sp_eq : s.sp = s.reg spIndex := rfl

@[simp] theorem State.decSp_reg (j : RegIdx) :
    s.decSp.reg j = if spIndex = j then s.sp - 1 else s.reg j := by
  simp [State.decSp]

@[simp] theorem State.incSp_reg (j : RegIdx) :
    s.incSp.reg j = if spIndex = j then s.sp + 1 else s.reg j := by
  simp [State.incSp]

@[simp] theorem State.decSp_sp : s.decSp.sp = s.sp - 1 := by simp [State.sp_eq]

@[simp] theorem State.incSp_sp : s.incSp.sp = s.sp + 1 := by simp [State.sp_eq]

theorem State.pushAddr_eq : s.pushAddr = (s.sp - 1).toNat := by simp [State.pushAddr]

/-- A push from SP writes the cell below it, wrapping from 0 to 255. -/
theorem State.pushAddr_mod : s.pushAddr = (s.sp.toNat + 255) % 256 := by
  rw [State.pushAddr_eq, BitVec.toNat_sub]
  have h : (1 : Byte).toNat = 1 := rfl
  rw [h]
  omega

theorem State.pushAddr_lt : s.pushAddr < 256 := (s.decSp.sp).isLt

theorem State.popAddr_lt : s.popAddr < 256 := s.sp.isLt

/-- The registers are equal when every register reads equal. -/
theorem State.regs_ext {s t : State} (h : ∀ r, t.reg r = s.reg r) : t.regs = s.regs := by
  apply Vector.ext
  intro i hi
  exact h ⟨i, hi⟩

/-- The status is Running exactly when no fault has been raised and the running flag is 1 (R33). -/
theorem State.status_running_iff : s.status = .running ↔ s.fault = none ∧ s.running = true := by
  unfold State.status
  cases s.fault <;> cases s.running <;> simp

theorem State.status_halted_iff : s.status = .halted ↔ s.fault = none ∧ s.running = false := by
  unfold State.status
  cases s.fault <;> cases s.running <;> simp

theorem State.status_faulted_iff (r : Fault) : s.status = .faulted r ↔ s.fault = some r := by
  unfold State.status
  cases s.fault <;> cases s.running <;> simp

@[simp] theorem State.enterFault_status (r : Fault) : (s.enterFault r).status = .faulted r := rfl

/-- Construction leaves every register 0 but R7, which is `SP_RESET` (R19). -/
theorem State.construct_reg (c : Config) (r : RegIdx) :
    (State.construct c).reg r = if r = spIndex then c.spReset else 0 := by
  fin_cases r <;> rfl

end Sys2Proof.Machine
end

