-- ==== Sys2Proof/Laws/Ops.lean ====
section
/-! SUPPORT. For each shared operation, everything it can do. -/

namespace Sys2Proof.Machine

/-! ### Operands -/

theorem withReg_of_lt {a : Byte} (h : a.toNat < regCount) (k : RegIdx → Result) :
    withReg a k = k ⟨a.toNat, h⟩ := dif_pos h

theorem withReg_of_not_lt {a : Byte} (h : ¬a.toNat < regCount) (k : RegIdx → Result) :
    withReg a k = .fault (.illegalRegister a) := dif_neg h

theorem withReg_next_iff {a : Byte} {k : RegIdx → Result} {t : State} :
    withReg a k = .next t ↔ ∃ h : a.toNat < regCount, k ⟨a.toNat, h⟩ = .next t := by
  unfold withReg
  split <;> simp_all

theorem withReg_fault_iff {a : Byte} {k : RegIdx → Result} {r : Fault} :
    withReg a k = .fault r ↔
      (¬a.toNat < regCount ∧ .illegalRegister a = r) ∨ ∃ h : a.toNat < regCount, k ⟨a.toNat, h⟩ = .fault r := by
  unfold withReg
  split <;> simp_all

theorem withReg_refused_iff {a : Byte} {k : RegIdx → Result} {r : Refusal} :
    withReg a k = .refused r ↔ ∃ h : a.toNat < regCount, k ⟨a.toNat, h⟩ = .refused r := by
  unfold withReg
  split <;> simp_all

/-! ### Going on or faulting -/

theorem orFault_next_iff {α : Type} {x : Except Fault α} {k : α → Result} {t : State} :
    orFault x k = .next t ↔ ∃ v, x = .ok v ∧ k v = .next t := by
  cases x <;> simp [orFault]

theorem orFault_fault_iff {α : Type} {x : Except Fault α} {k : α → Result} {r : Fault} :
    orFault x k = .fault r ↔ x = .error r ∨ ∃ v, x = .ok v ∧ k v = .fault r := by
  cases x <;> simp [orFault]

theorem orFault_refused_iff {α : Type} {x : Except Fault α} {k : α → Result} {r : Refusal} :
    orFault x k = .refused r ↔ ∃ v, x = .ok v ∧ k v = .refused r := by
  cases x <;> simp [orFault]

/-! ### Memory access (R38, R39) -/

theorem memRead_ok_iff {s : State} {a : Nat} {v : Byte} :
    memRead s a = .ok v ↔ a < s.cfg.memSize ∧ s.mem.read a = v := by
  unfold memRead
  split <;> simp_all

theorem memRead_error_iff {s : State} {a : Nat} {r : Fault} :
    memRead s a = .error r ↔ s.cfg.memSize ≤ a ∧ .memOutOfBounds a = r := by
  unfold memRead
  split
  · simp
    omega
  · simp
    omega

theorem memWrite_ok_iff {s t : State} {a : Nat} {v : Byte} :
    memWrite s a v = .ok t ↔ a < s.cfg.memSize ∧ s.setMem (s.mem.write a v) = t := by
  unfold memWrite
  split <;> simp_all

theorem memWrite_error_iff {s : State} {a : Nat} {v : Byte} {r : Fault} :
    memWrite s a v = .error r ↔ s.cfg.memSize ≤ a ∧ .memOutOfBounds a = r := by
  unfold memWrite
  split
  · simp
    omega
  · simp
    omega

/-! ### The stack (R84) -/

theorem push_ok_iff {s t : State} {v : State → Byte} :
    push s v = .ok t ↔
      s.pushAddr < s.cfg.memSize ∧ s.decSp.setMem (s.mem.write s.pushAddr (v s.decSp)) = t := by
  unfold push
  rw [memWrite_ok_iff]
  simp

theorem push_error_iff {s : State} {v : State → Byte} {r : Fault} :
    push s v = .error r ↔ s.cfg.memSize ≤ s.pushAddr ∧ .memOutOfBounds s.pushAddr = r := by
  unfold push
  rw [memWrite_error_iff]
  simp

theorem popRead_ok_iff {s : State} {v : Byte} :
    popRead s = .ok v ↔ s.popAddr < s.cfg.memSize ∧ s.mem.read s.popAddr = v := memRead_ok_iff

theorem popRead_error_iff {s : State} {r : Fault} :
    popRead s = .error r ↔ s.cfg.memSize ≤ s.popAddr ∧ .memOutOfBounds s.popAddr = r := memRead_error_iff

/-- With 256 cells no push and no pop can fault (R39, R101). -/
theorem stack_in_bounds {s : State} (h : s.cfg.memSize = 256) :
    s.pushAddr < s.cfg.memSize ∧ s.popAddr < s.cfg.memSize :=
  ⟨h ▸ s.pushAddr_lt, h ▸ s.popAddr_lt⟩

/-! ### The ALU and the flags -/

theorem aluSum_toNat (x y : Byte) : (aluSum x y).toNat = (x.toNat + y.toNat) % 256 := by
  simp [aluSum]

theorem aluProduct_toNat (x y : Byte) : (aluProduct x y).toNat = x.toNat * y.toNat % 256 := by
  simp [aluProduct]

theorem compareFlags_exclusive (x y : Byte) : (compareFlags x y).exclusive := by
  unfold compareFlags
  split
  · decide
  · split <;> decide

/-! ### Conditional jumps -/

@[simp] theorem jumpIf_regs (c : Bool) (r : RegIdx) (s : State) : (jumpIf c r s).regs = s.regs := by
  unfold jumpIf; split <;> rfl

@[simp] theorem jumpIf_cfg (c : Bool) (r : RegIdx) (s : State) : (jumpIf c r s).cfg = s.cfg := by
  unfold jumpIf; split <;> rfl

@[simp] theorem jumpIf_fl (c : Bool) (r : RegIdx) (s : State) : (jumpIf c r s).fl = s.fl := by
  unfold jumpIf; split <;> rfl

@[simp] theorem jumpIf_running (c : Bool) (r : RegIdx) (s : State) : (jumpIf c r s).running = s.running := by
  unfold jumpIf; split <;> rfl

@[simp] theorem jumpIf_fault (c : Bool) (r : RegIdx) (s : State) : (jumpIf c r s).fault = s.fault := by
  unfold jumpIf; split <;> rfl

@[simp] theorem jumpIf_out (c : Bool) (r : RegIdx) (s : State) : (jumpIf c r s).out = s.out := by
  unfold jumpIf; split <;> rfl

@[simp] theorem jumpIf_mem (c : Bool) (r : RegIdx) (s : State) : (jumpIf c r s).mem = s.mem := by
  unfold jumpIf; split <;> rfl

@[simp] theorem jumpIf_reg (c : Bool) (r j : RegIdx) (s : State) : (jumpIf c r s).reg j = s.reg j := by
  unfold jumpIf; split <;> rfl

theorem jumpIf_pc (c : Bool) (r : RegIdx) (s : State) :
    (jumpIf c r s).pc = if c then (s.reg r).toNat else s.pc + 2 := by
  unfold jumpIf; split <;> rfl

/-! ### The engine -/

theorem fetch_ok_iff {s : State} {f : Fetched} :
    fetch s = .ok f ↔ s.pc + 2 < s.cfg.memSize ∧
      f = { opcode := s.mem.read s.pc, operandA := s.mem.read (s.pc + 1), operandB := s.mem.read (s.pc + 2) } := by
  unfold fetch memRead
  by_cases h0 : s.pc < s.cfg.memSize
  · by_cases h1 : s.pc + 1 < s.cfg.memSize
    · by_cases h2 : s.pc + 2 < s.cfg.memSize <;> simp [h0, h1, h2, eq_comm]
    · have h2 : ¬s.pc + 2 < s.cfg.memSize := by omega
      simp [h0, h1, h2]
  · have h2 : ¬s.pc + 2 < s.cfg.memSize := by omega
    simp [h0, h2]

/-- A fetch faults only at one of its three addresses, and only beyond the last cell (R69, R71). -/
theorem fetch_error {s : State} {r : Fault} (h : fetch s = .error r) :
    ∃ a, r = .memOutOfBounds a ∧ s.cfg.memSize ≤ a ∧ s.pc ≤ a ∧ a ≤ s.pc + 2 := by
  unfold fetch at h
  split at h
  · rename_i h0
    obtain ⟨ha, rfl⟩ := memRead_error_iff.1 h0
    cases h
    exact ⟨_, rfl, ha, by omega, by omega⟩
  · split at h
    · rename_i h1
      obtain ⟨ha, rfl⟩ := memRead_error_iff.1 h1
      cases h
      exact ⟨_, rfl, ha, by omega, by omega⟩
    · split at h
      · rename_i h2
        obtain ⟨ha, rfl⟩ := memRead_error_iff.1 h2
        cases h
        exact ⟨_, rfl, ha, by omega, by omega⟩
      · cases h

@[simp] theorem advance_regs (op : Byte) (s : State) : (advance op s).regs = s.regs := by
  unfold advance; split <;> rfl

@[simp] theorem advance_reg (op : Byte) (s : State) (r : RegIdx) : (advance op s).reg r = s.reg r := by
  unfold advance; split <;> rfl

@[simp] theorem advance_sp (op : Byte) (s : State) : (advance op s).sp = s.sp := by
  unfold advance; split <;> rfl

@[simp] theorem advance_cfg (op : Byte) (s : State) : (advance op s).cfg = s.cfg := by
  unfold advance; split <;> rfl

@[simp] theorem advance_fl (op : Byte) (s : State) : (advance op s).fl = s.fl := by
  unfold advance; split <;> rfl

@[simp] theorem advance_running (op : Byte) (s : State) : (advance op s).running = s.running := by
  unfold advance; split <;> rfl

@[simp] theorem advance_fault (op : Byte) (s : State) : (advance op s).fault = s.fault := by
  unfold advance; split <;> rfl

@[simp] theorem advance_out (op : Byte) (s : State) : (advance op s).out = s.out := by
  unfold advance; split <;> rfl

@[simp] theorem advance_mem (op : Byte) (s : State) : (advance op s).mem = s.mem := by
  unfold advance; split <;> rfl

theorem advance_pc (op : Byte) (s : State) :
    (advance op s).pc = if setsPcField op then s.pc else s.pc + lengthField op := by
  unfold advance; split <;> rfl

theorem runInstr_next_iff {op : Byte} {i : Instr} {s t : State} :
    runInstr op i s = .next t ↔ ∃ u, exec i s = .next u ∧ advance op u = t := by
  unfold runInstr
  cases exec i s <;> simp

/-- Everything a step that answers a next state can have done: it ran a cycle of a Running machine, and either
skipped an unknown opcode or ran the decoded instruction and advanced. -/
theorem step_next_cases {s t : State} (h : step s = .next t) :
    s.status = .running ∧ ∃ f, fetch s = .ok f ∧
      ((s.cfg.opcodes.lookup f.opcode = none ∧ s.cfg.policy = .skip ∧ t = advance f.opcode s) ∨
        ∃ i u, decodeInstr s.cfg.opcodes f.opcode f.operandA f.operandB = .ok i ∧
          exec i s = .next u ∧ t = advance f.opcode u) := by
  unfold step engineStep at h
  split at h
  · refine ⟨by assumption, ?_⟩
    obtain ⟨f, hf, h⟩ := orFault_next_iff.1 h
    refine ⟨f, hf, ?_⟩
    unfold runFetched at h
    split at h
    · rename_i b hb
      left
      unfold unknownOpcodeAction at h
      split at h
      · cases h
      · unfold decodeInstr at hb
        split at hb
        · rename_i hl
          cases hb
          cases h
          exact ⟨hl, by assumption, rfl⟩
        · split at hb <;> cases hb
    · cases h
    · rename_i i hi
      obtain ⟨u, hu, rfl⟩ := runInstr_next_iff.1 h
      exact .inr ⟨i, u, hi, hu, rfl⟩
  · cases h
  · cases h

end Sys2Proof.Machine
end

