-- ==== Sys2Proof/Laws/PerInstr.lean ====
section
/-! SUPPORT. What holds of every instruction as syntax: under an admissible opcode map its encoding is as long as
the length field of its opcode byte says, and its opcode byte carries its sets-PC bit (30_encoding.md R52, R58, R63). -/

namespace Sys2Proof.Laws.EncodingShape

/-- The encoded length is the length field of the opcode byte, and bit 4 is the instruction's sets-PC property. -/
def Statement (i : Instr) : Prop :=
  ∀ m : OpcodeMap, m.Admissible →
    (encode m i).length = i.length ∧ lengthField (m.code i.mnemonic) = i.length ∧
      setsPcField (m.code i.mnemonic) = i.mnemonic.setsPc

/-- The two fields follow from admissibility; each instruction only has its operand bytes to count. -/
theorem of_operands (i : Instr) (h : i.operandBytes.length = i.mnemonic.operandCount) : Statement i := by
  intro m hm
  obtain ⟨hn, hp⟩ := hm.fields i.mnemonic
  refine ⟨?_, ?_, hp⟩
  · simp [encode, Instr.length, h]
  · simp [lengthField, Instr.length, hn]

theorem hlt : Statement .hlt := of_operands _ rfl

theorem ldi (a imm : Byte) : Statement (.ldi a imm) := of_operands _ rfl

theorem prn (a : Byte) : Statement (.prn a) := of_operands _ rfl

theorem psh (a : Byte) : Statement (.psh a) := of_operands _ rfl

theorem pop (a : Byte) : Statement (.pop a) := of_operands _ rfl

theorem cal (a : Byte) : Statement (.cal a) := of_operands _ rfl

theorem ret : Statement .ret := of_operands _ rfl

theorem add (a b : Byte) : Statement (.add a b) := of_operands _ rfl

theorem mul (a b : Byte) : Statement (.mul a b) := of_operands _ rfl

theorem cmp (a b : Byte) : Statement (.cmp a b) := of_operands _ rfl

theorem jmp (a : Byte) : Statement (.jmp a) := of_operands _ rfl

theorem jeq (a : Byte) : Statement (.jeq a) := of_operands _ rfl

theorem jne (a : Byte) : Statement (.jne a) := of_operands _ rfl

end Sys2Proof.Laws.EncodingShape
end

