-- ==== Sys2Proof/Laws/Step.lean ====
section
/-! SUPPORT. What a step and a cycle can be, and what is known of a state whose next cycle runs an instruction. -/

namespace Sys2Proof.Machine

theorem step_running {s : State} (h : s.status = .running) : step s = engineCycle s := by
  simp [step, engineStep, h]

/-- A machine that has ended has no cycle, and stays as it is. -/
theorem step_not_running {s : State} (h : s.status ≠ .running) : ∃ r, step s = .refused r := by
  unfold step engineStep
  cases hs : s.status
  · exact absurd hs h
  · exact ⟨_, rfl⟩
  · exact ⟨_, rfl⟩

/-- What decodes was looked up by its exact byte, and its register fields passed the check. -/
theorem decodeInstr_ok {m : OpcodeMap} {op a b : Byte} {i : Instr} (h : decodeInstr m op a b = .ok i) :
    ∃ k, m.lookup op = some k ∧ m.code k = op ∧ illegalOperand k.format a b = none ∧ i = buildInstr k a b := by
  unfold decodeInstr at h
  split at h
  · cases h
  · rename_i k hk
    split at h
    · cases h
    · rename_i hn
      cases h
      exact ⟨k, hk, OpcodeMap.code_of_lookup hk, hn, rfl⟩

theorem buildInstr_mnemonic (k : Mnemonic) (a b : Byte) : (buildInstr k a b).mnemonic = k := by cases k <;> rfl

/-- The opcode of the next cycle is the map's byte of the instruction, stands at pc, and three bytes exist there. -/
theorem RunsNext.opcode {s : State} {op : Byte} {i : Instr} (h : RunsNext s op i) :
    s.cfg.opcodes.code i.mnemonic = op ∧ s.mem.read s.pc = op ∧ s.pc + 2 < s.cfg.memSize := by
  obtain ⟨-, f, hf, rfl, hd⟩ := h
  obtain ⟨k, -, hc, -, rfl⟩ := decodeInstr_ok hd
  obtain ⟨hb, hf⟩ := fetch_ok_iff.1 hf
  exact ⟨by rw [buildInstr_mnemonic]; exact hc, by rw [hf], hb⟩

/-- A cycle that runs an instruction is its handler and the advance. -/
theorem RunsNext.step_eq {s : State} {op : Byte} {i : Instr} (h : RunsNext s op i) : step s = runInstr op i s := by
  obtain ⟨hs, f, hf, rfl, hd⟩ := h
  rw [step_running hs]
  simp [engineCycle, hf, orFault, runFetched, hd]

/-- The state after a cycle of the loop: an instruction ran, an unknown opcode was skipped, a fault was taken, or
there was no cycle. -/
theorem cycle_cases (s : State) :
    (∃ op i t, RunsNext s op i ∧ exec i s = .next t ∧ cycle s = advance op t) ∨
      (∃ op, cycle s = advance op s) ∨ (∃ r, cycle s = s.enterFault r) ∨ cycle s = s := by
  unfold cycle
  cases hst : step s with
  | fault r => exact .inr (.inr (.inl ⟨r, rfl⟩))
  | refused r => exact .inr (.inr (.inr rfl))
  | next t =>
    obtain ⟨hs, f, hf, ⟨_, _, rfl⟩ | ⟨i, u, hd, hu, rfl⟩⟩ := step_next_cases hst
    · exact .inr (.inl ⟨_, rfl⟩)
    · exact .inl ⟨f.opcode, i, u, ⟨hs, f, hf, rfl, hd⟩, hu, rfl⟩

end Sys2Proof.Machine
end

