-- ==== Sys2Proof/Tests/Slice0.lean ====
section
/-! SUPPORT. The model's own tests: the check of WellFormed, decodings written out from the encoding rules, one or
two steps per instruction with the results of spec/95_test_vectors.md, the loader, and a witness for the hypotheses of
every statement. -/

namespace Sys2Proof.Machine

/-- This hardware at address `at_` with these bytes there, and nothing else in memory. -/
def tinyAt (at_ : Nat) (bytes : List Byte) : State :=
  { State.reset with pc := at_, mem := Memory.writeFrom [] at_ bytes }

/-- The same with other parameters. -/
def tinyWith (size : Nat) (p : UnknownPolicy) (bytes : List Byte) : State :=
  { tinyAt 0 bytes with cfg := { hardwareConfig with memSize := size, policy := p } }

/-- What a step leaves, seen through one reading of the state. -/
def after {α : Type} (s : State) (view : State → α) : Option α := (nextOf (step s)).map view

/-! ### WellFormed: an ill-formed term for each check -/

theorem test_ill_formed : [Instr.ldi 8 0, .prn 8, .psh 255, .pop 8, .cal 9, .add 8 0, .add 0 8, .mul 8 0, .mul 0 8,
    .cmp 8 0, .cmp 0 8, .jmp 8, .jeq 8, .jne 128].map Instr.wellFormed = List.replicate 14 false := by decide

theorem test_well_formed : [Instr.hlt, .ldi 7 255, .prn 7, .psh 7, .pop 7, .cal 7, .ret, .add 7 7, .mul 7 7, .cmp 7 7,
    .jmp 7, .jeq 7, .jne 7].map Instr.wellFormed = List.replicate 13 true := by decide

/-! ### Decoding: each word written out from R59 and R54 -/
theorem test_decode_hlt : decodeInstr hardwareOpcodes 0b00000001 0 0 = .ok (.hlt) := rfl
theorem test_decode_ldi : decodeInstr hardwareOpcodes 0b10000010 0b00000011 0b11001000 = .ok (.ldi 3 200) := rfl
theorem test_decode_prn : decodeInstr hardwareOpcodes 0b01000111 0b00000101 0 = .ok (.prn 5) := rfl
theorem test_decode_psh : decodeInstr hardwareOpcodes 0b01000101 0b00000010 0 = .ok (.psh 2) := rfl
theorem test_decode_pop : decodeInstr hardwareOpcodes 0b01000110 0b00000100 0 = .ok (.pop 4) := rfl
theorem test_decode_cal : decodeInstr hardwareOpcodes 0b01010000 0b00000001 0 = .ok (.cal 1) := rfl
theorem test_decode_ret : decodeInstr hardwareOpcodes 0b00010001 0b11111111 0b11111111 = .ok (.ret) := rfl
theorem test_decode_add : decodeInstr hardwareOpcodes 0b10100000 0b00000110 0b00000111 = .ok (.add 6 7) := rfl
theorem test_decode_mul : decodeInstr hardwareOpcodes 0b10100010 0b00000000 0b00000001 = .ok (.mul 0 1) := rfl
theorem test_decode_cmp : decodeInstr hardwareOpcodes 0b10100111 0b00000111 0b00000010 = .ok (.cmp 7 2) := rfl
theorem test_decode_jmp : decodeInstr hardwareOpcodes 0b01010100 0b00000011 0 = .ok (.jmp 3) := rfl
theorem test_decode_jeq : decodeInstr hardwareOpcodes 0b01010101 0b00000010 0b11111111 = .ok (.jeq 2) := rfl
theorem test_decode_jne : decodeInstr hardwareOpcodes 0b01010110 0b00000111 0 = .ok (.jne 7) := rfl
/-- LDI's register byte is checked, its immediate is not (VE10, VE13). -/
theorem test_decode_checks :
    decodeInstr hardwareOpcodes 0x82 8 5 = .error (.illegalRegister 8) ∧
    decodeInstr hardwareOpcodes 0x82 0 255 = .ok (.ldi 0 255) ∧
    decodeInstr hardwareOpcodes 0xA0 0 9 = .error (.illegalRegister 9) ∧
    decodeInstr hardwareOpcodes 0xA0 9 8 = .error (.illegalRegister 9) ∧
    decodeInstr hardwareOpcodes 0x00 9 9 = .error (.unknownOpcode 0) := ⟨rfl, rfl, rfl, rfl, rfl⟩

/-- 243 of the 256 opcode bytes are unknown (R61). -/
theorem test_unknown_count :
    ((List.range 256).filter fun n => (hardwareOpcodes.lookup (BitVec.ofNat 8 n)).isNone).length = 243 := by
  decide +kernel

/-- Another admissible map is followed (R60): HLT at 0x00. -/
theorem test_other_map :
    decodeInstr { hardwareOpcodes with hlt := 0 } 0 0 0 = .ok .hlt ∧
    decodeInstr { hardwareOpcodes with hlt := 0 } 1 0 0 = .error (.unknownOpcode 1) := ⟨rfl, rfl⟩

/-- The opcode table's word of LDI, first byte lowest. -/
theorem test_table_word : decodeTableWord 24 0xC80382 = some (.ldi 3 200) ∧ decodeTableWord 8 0xFF0A2 = some (.mul 0 0) ∧
    decodeTableWord 8 0 = none := ⟨rfl, rfl, rfl⟩

/-- The placed word is what the first step after reset runs. -/
theorem test_with_fetch_word :
    (nextOf (step (State.reset.withFetchWord 24 0xC80382))).map (fun t => (t.reg 3, t.pc)) = some (200, 3) := by decide

/-! ### Engine (VE1 to VE14) -/

theorem test_hlt_at_253 : after (tinyAt 253 [0x01]) (fun t => (t.status, t.pc)) = some (.halted, 254) := by decide

theorem test_prefetch_faults :
    faultOf (step (tinyAt 254 [0x01])) = some (.memOutOfBounds 256) ∧
    faultOf (step (tinyAt 255 [0x00])) = some (.memOutOfBounds 256) ∧
    faultOf (step (tinyAt 256 [])) = some (.memOutOfBounds 256) := by decide

theorem test_unknown_faults : faultOf (step State.reset) = some (.unknownOpcode 0) ∧
    (cycle State.reset).status = .faulted (.unknownOpcode 0) ∧ (cycle State.reset).pc = 0 := by decide

/-- VE7, VE8, VE9. -/
theorem test_skip :
    after (tinyWith 256 .skip [0x00, 0x01]) State.pc = some 1 ∧
    after (tinyWith 256 .skip [0x10]) State.pc = some 0 ∧
    after (tinyWith 256 .skip [0xC0]) State.pc = some 4 := by decide

/-- VE14: a fault in a handler leaves SP as it was. -/
theorem test_small_memory :
    faultOf (step (tinyWith 8 .fault [0x45, 0x00])) = some (.memOutOfBounds 255) ∧
    (cycle (tinyWith 8 .fault [0x45, 0x00])).sp = 0 := by decide

theorem test_illegal_register_not_taken : faultOf (step (tinyAt 0 [0x55, 0x08])) = some (.illegalRegister 8) := by decide

/-- No cycle follows HLT or a fault. -/
theorem test_no_cycle_after_the_end :
    refusalOf (step (cycle (tinyAt 0 [0x01]))) = some .haltedNoCycle ∧
    refusalOf (step (cycle State.reset)) = some (.faultedNoCycle (.unknownOpcode 0)) := by decide

/-! ### One or two steps per instruction (VH, VL, VS, VA, VB) -/

theorem test_hlt : after (tinyAt 0 [0x01]) (fun t => (t.running, t.pc, t.out)) = some (false, 1, []) := by decide

theorem test_ldi : after (tinyAt 0 [0x82, 0x00, 0xFF]) (fun t => (t.reg 0, t.pc)) = some (255, 3) := by decide

theorem test_ldi_sp : after (tinyAt 0 [0x82, 0x07, 0xF4]) (fun t => (t.sp, t.pc)) = some (244, 3) := by decide

theorem test_prn : after ((tinyAt 0 [0x47, 0x07]).setReg 7 255) (fun t => (t.out, t.pc)) = some ([255], 2) := by decide

theorem test_psh : after ((tinyAt 0 [0x45, 0x01]).setReg 1 7) (fun t => (t.sp, t.mem.read 255, t.pc)) = some (255, 7, 2) := by
  decide

/-- VS3: PSH R7 stores the decremented SP. -/
theorem test_psh_sp : after (tinyAt 0 [0x45, 0x07]) (fun t => (t.sp, t.mem.read 255)) = some (255, 255) := by decide

theorem test_pop : after (((tinyAt 0 [0x46, 0x02]).setReg 7 255).setMem [(0, 0x46), (1, 2), (255, 7)])
    (fun t => (t.reg 2, t.sp, t.pc)) = some (7, 0, 2) := by decide

/-- VS4: POP R7 ends as the popped value plus 1. -/
theorem test_pop_sp : after ((tinyAt 0 [0x46, 0x07]).setReg 7 255) State.sp = some 1 := by decide

theorem test_cal : after ((tinyAt 6 [0x50, 0x01]).setReg 1 11) (fun t => (t.sp, t.mem.read 255, t.pc)) = some (255, 8, 11) := by
  decide

/-- VS7: CAL R7 jumps to the decremented SP. -/
theorem test_cal_sp : after (tinyAt 10 [0x50, 0x07]) (fun t => (t.sp, t.mem.read 255, t.pc)) = some (255, 12, 255) := by decide

theorem test_ret : after (((tinyAt 14 [0x11]).setReg 7 255).setMem [(14, 0x11), (255, 8)]) (fun t => (t.pc, t.sp)) = some (8, 0) := by
  decide

theorem test_add_wraps : after (((tinyAt 0 [0xA0, 0x00, 0x01]).setReg 0 200).setReg 1 100) (fun t => (t.reg 0, t.reg 1, t.pc)) =
    some (44, 100, 3) := by decide

/-- VA4 and VA16: the source is the destination, and no flag is written. -/
theorem test_add_self : after (((tinyAt 0 [0xA0, 0x00, 0x00]).setReg 0 128).setFl ⟨false, true, false⟩) (fun t => (t.reg 0, t.fl)) =
    some (0, ⟨false, true, false⟩) := by decide

theorem test_mul : after (((tinyAt 0 [0xA2, 0x00, 0x01]).setReg 0 20).setReg 1 20) (fun t => (t.reg 0, t.pc)) = some (144, 3) := by
  decide

theorem test_mul_top : after (((tinyAt 0 [0xA2, 0x00, 0x01]).setReg 0 255).setReg 1 255) (fun t => t.reg 0) = some 1 := by decide

/-- VA15: E is cleared, not merged. -/
theorem test_cmp_overwrites : after ((((tinyAt 0 [0xA7, 0x00, 0x01]).setReg 0 1).setReg 1 2).setFl ⟨true, false, false⟩)
    (fun t => (t.fl, t.pc)) = some (⟨false, false, true⟩, 3) := by decide

/-- VA12: the comparison is unsigned. -/
theorem test_cmp_unsigned : after ((tinyAt 0 [0xA7, 0x00, 0x01]).setReg 0 255) State.fl = some ⟨false, true, false⟩ := by decide

theorem test_jmp : after ((tinyAt 20 [0x54, 0x03]).setReg 3 12) State.pc = some 12 := by decide

theorem test_jeq : after (((tinyAt 12 [0x55, 0x02]).setReg 2 17).setFl ⟨true, false, false⟩) State.pc = some 17 ∧
    after ((tinyAt 12 [0x55, 0x02]).setReg 2 17) State.pc = some 14 := by decide

/-- VB10: G does not make JEQ jump. -/
theorem test_jeq_greater : after (((tinyAt 0 [0x55, 0x02]).setReg 2 40).setFl ⟨false, true, false⟩) State.pc = some 2 := by decide

theorem test_jne : after ((tinyAt 20 [0x56, 0x03]).setReg 3 12) State.pc = some 12 ∧
    after (((tinyAt 20 [0x56, 0x03]).setReg 3 12).setFl ⟨true, false, false⟩) State.pc = some 22 := by decide

/-! ### FL as a byte, fault codes, image text, load, assembly -/

theorem test_fl_byte : Flags.toByte ⟨true, false, false⟩ = 0b001 ∧ Flags.toByte ⟨false, true, false⟩ = 0b010 ∧
    Flags.toByte ⟨false, false, true⟩ = 0b100 ∧ Flags.toByte ⟨false, false, false⟩ = 0 := by decide

theorem test_fault_codes : [Fault.memOutOfBounds 256, .illegalRegister 8, .unknownOpcode 0, .unsupportedAluOp 7,
    .loadError (.imageTooLong 257)].map Fault.code = [1, 2, 3, 4, 5] := by decide

/-- W1: the line of the document's example, with its comment. -/
theorem test_line : parseLine ("10000010 # LDI r0 5".toList) = .byte 0x82 ∧ parseLine ("  # only a comment".toList) = .blank ∧
    parseLine ("1000001".toList) = .malformed ∧ parseLine ("10000012".toList) = .malformed := by decide

theorem test_load : (nextOf (loadImage [0x82, 0, 5] State.reset)).map State.mem = some [(0, 0x82), (2, 5)] ∧
    faultOf (loadImage [1, 256] State.reset) = some (.loadError (.valueTooLarge 1 256)) ∧
    faultOf (loadText ["00000001".toList, "x".toList] State.reset) = some (.loadError (.malformedLine 1 "x".toList)) := by decide

theorem test_boot_runs : (boot hardwareConfig ["00000001".toList]).status = .running ∧
    (cycle (boot hardwareConfig ["00000001".toList])).result = some (.halted [] (State.reset.regs) 1 ⟨false, false, false⟩ [(0, 1)]) := by
  decide

theorem test_assemble : assembleLine "LDI r0 5".toList = some (.ldi 0 5) ∧ assembleLine "add R0, r1".toList = some (.add 0 1) ∧
    assembleLine "call r2".toList = some (.cal 2) ∧ assembleLine "LDI r8 5".toList = none ∧
    assembleLine "LDI R3, 0xC8".toList = some (.ldi 3 200) ∧ assembleLine "LDI R3 0b11".toList = some (.ldi 3 3) ∧
    assembleLine "JEQ 17".toList = none ∧ assembleLine "LDI r0 256".toList = none := by decide

/-! ### Witnesses: concrete states and operands that meet the hypotheses of the statements -/

/-- A way to give `RunsNext` on a concrete state. -/
theorem runsNext_of {s : State} {i : Instr} (h : s.status = .running) (hp : s.pc + 2 < s.cfg.memSize)
    (hd : decodeInstr s.cfg.opcodes (s.mem.read s.pc) (s.mem.read (s.pc + 1)) (s.mem.read (s.pc + 2)) = .ok i) :
    RunsNext s (s.mem.read s.pc) i := by
  refine ⟨h, ⟨s.mem.read s.pc, s.mem.read (s.pc + 1), s.mem.read (s.pc + 2)⟩, ?_, rfl, hd⟩
  have h0 : s.pc < s.cfg.memSize := by omega
  have h1 : s.pc + 1 < s.cfg.memSize := by omega
  simp [fetch, memRead, h0, h1, hp]

theorem test_hardware_admissible : hardwareConfig.Admissible := by decide

/-! For each instruction: a state whose next cycle runs it, whose parameters are admissible, and in which its handler
answers a next state (the hypotheses of the "engine" clauses; `EngineAdvances`, `EngineLeavesPc`). -/

theorem test_witness_runs_hlt : (tinyAt 253 [0x01]).cfg.Admissible ∧ RunsNext (tinyAt 253 [0x01]) 0x01 (.hlt) ∧
    ∃ t, exec (.hlt) (tinyAt 253 [0x01]) = .next t :=
  ⟨by decide, runsNext_of (by decide) (by decide) rfl, ⟨_, rfl⟩⟩

theorem test_witness_runs_ldi : (tinyAt 253 [0x82, 7, 255]).cfg.Admissible ∧ RunsNext (tinyAt 253 [0x82, 7, 255]) 0x82 (.ldi 7 255) ∧
    ∃ t, exec (.ldi 7 255) (tinyAt 253 [0x82, 7, 255]) = .next t :=
  ⟨by decide, runsNext_of (by decide) (by decide) rfl, ⟨_, rfl⟩⟩

theorem test_witness_runs_prn : (tinyAt 0 [0x47, 7]).cfg.Admissible ∧ RunsNext (tinyAt 0 [0x47, 7]) 0x47 (.prn 7) ∧
    ∃ t, exec (.prn 7) (tinyAt 0 [0x47, 7]) = .next t :=
  ⟨by decide, runsNext_of (by decide) (by decide) rfl, ⟨_, rfl⟩⟩

theorem test_witness_runs_psh : (tinyAt 0 [0x45, 7]).cfg.Admissible ∧ RunsNext (tinyAt 0 [0x45, 7]) 0x45 (.psh 7) ∧
    ∃ t, exec (.psh 7) (tinyAt 0 [0x45, 7]) = .next t :=
  ⟨by decide, runsNext_of (by decide) (by decide) rfl, ⟨_, rfl⟩⟩

theorem test_witness_runs_pop : (tinyAt 0 [0x46, 0]).cfg.Admissible ∧ RunsNext (tinyAt 0 [0x46, 0]) 0x46 (.pop 0) ∧
    ∃ t, exec (.pop 0) (tinyAt 0 [0x46, 0]) = .next t :=
  ⟨by decide, runsNext_of (by decide) (by decide) rfl, ⟨_, rfl⟩⟩

theorem test_witness_runs_cal : (tinyAt 6 [0x50, 1]).cfg.Admissible ∧ RunsNext (tinyAt 6 [0x50, 1]) 0x50 (.cal 1) ∧
    ∃ t, exec (.cal 1) (tinyAt 6 [0x50, 1]) = .next t :=
  ⟨by decide, runsNext_of (by decide) (by decide) rfl, ⟨_, rfl⟩⟩

theorem test_witness_runs_ret : (tinyAt 0 [0x11]).cfg.Admissible ∧ RunsNext (tinyAt 0 [0x11]) 0x11 (.ret) ∧
    ∃ t, exec (.ret) (tinyAt 0 [0x11]) = .next t :=
  ⟨by decide, runsNext_of (by decide) (by decide) rfl, ⟨_, rfl⟩⟩

theorem test_witness_runs_add : (tinyAt 0 [0xA0, 7, 7]).cfg.Admissible ∧ RunsNext (tinyAt 0 [0xA0, 7, 7]) 0xA0 (.add 7 7) ∧
    ∃ t, exec (.add 7 7) (tinyAt 0 [0xA0, 7, 7]) = .next t :=
  ⟨by decide, runsNext_of (by decide) (by decide) rfl, ⟨_, rfl⟩⟩

theorem test_witness_runs_mul : (tinyAt 0 [0xA2, 0, 1]).cfg.Admissible ∧ RunsNext (tinyAt 0 [0xA2, 0, 1]) 0xA2 (.mul 0 1) ∧
    ∃ t, exec (.mul 0 1) (tinyAt 0 [0xA2, 0, 1]) = .next t :=
  ⟨by decide, runsNext_of (by decide) (by decide) rfl, ⟨_, rfl⟩⟩

theorem test_witness_runs_cmp : (tinyAt 0 [0xA7, 0, 1]).cfg.Admissible ∧ RunsNext (tinyAt 0 [0xA7, 0, 1]) 0xA7 (.cmp 0 1) ∧
    ∃ t, exec (.cmp 0 1) (tinyAt 0 [0xA7, 0, 1]) = .next t :=
  ⟨by decide, runsNext_of (by decide) (by decide) rfl, ⟨_, rfl⟩⟩

theorem test_witness_runs_jmp : (tinyAt 0 [0x54, 0]).cfg.Admissible ∧ RunsNext (tinyAt 0 [0x54, 0]) 0x54 (.jmp 0) ∧
    ∃ t, exec (.jmp 0) (tinyAt 0 [0x54, 0]) = .next t :=
  ⟨by decide, runsNext_of (by decide) (by decide) rfl, ⟨_, rfl⟩⟩

theorem test_witness_runs_jeq : (tinyAt 0 [0x55, 7]).cfg.Admissible ∧ RunsNext (tinyAt 0 [0x55, 7]) 0x55 (.jeq 7) ∧
    ∃ t, exec (.jeq 7) (tinyAt 0 [0x55, 7]) = .next t :=
  ⟨by decide, runsNext_of (by decide) (by decide) rfl, ⟨_, rfl⟩⟩

theorem test_witness_runs_jne : (tinyAt 0 [0x56, 7]).cfg.Admissible ∧ RunsNext (tinyAt 0 [0x56, 7]) 0x56 (.jne 7) ∧
    ∃ t, exec (.jne 7) (tinyAt 0 [0x56, 7]) = .next t :=
  ⟨by decide, runsNext_of (by decide) (by decide) rfl, ⟨_, rfl⟩⟩

/-! For each instruction with a register operand: a Running machine that fetches its opcode with operand 8, and for the
two-register ones with 7 and then 8 (`FaultsOnOperandA`, `FaultsOnOperandB`, `RegisterFieldsAreChecked`). -/

theorem test_witness_bad_a_ldi : (tinyAt 0 [0x82, 8]).status = .running ∧
    fetch (tinyAt 0 [0x82, 8]) = .ok ⟨hardwareOpcodes.code .ldi, 8, 0⟩ ∧ regCount ≤ (8 : Byte).toNat := ⟨rfl, rfl, by decide⟩

theorem test_witness_bad_a_prn : (tinyAt 0 [0x47, 8]).status = .running ∧
    fetch (tinyAt 0 [0x47, 8]) = .ok ⟨hardwareOpcodes.code .prn, 8, 0⟩ ∧ regCount ≤ (8 : Byte).toNat := ⟨rfl, rfl, by decide⟩

theorem test_witness_bad_a_psh : (tinyAt 0 [0x45, 8]).status = .running ∧
    fetch (tinyAt 0 [0x45, 8]) = .ok ⟨hardwareOpcodes.code .psh, 8, 0⟩ ∧ regCount ≤ (8 : Byte).toNat := ⟨rfl, rfl, by decide⟩

theorem test_witness_bad_a_pop : (tinyAt 0 [0x46, 8]).status = .running ∧
    fetch (tinyAt 0 [0x46, 8]) = .ok ⟨hardwareOpcodes.code .pop, 8, 0⟩ ∧ regCount ≤ (8 : Byte).toNat := ⟨rfl, rfl, by decide⟩

theorem test_witness_bad_a_cal : (tinyAt 0 [0x50, 8]).status = .running ∧
    fetch (tinyAt 0 [0x50, 8]) = .ok ⟨hardwareOpcodes.code .cal, 8, 0⟩ ∧ regCount ≤ (8 : Byte).toNat := ⟨rfl, rfl, by decide⟩

theorem test_witness_bad_a_add : (tinyAt 0 [0xA0, 8]).status = .running ∧
    fetch (tinyAt 0 [0xA0, 8]) = .ok ⟨hardwareOpcodes.code .add, 8, 0⟩ ∧ regCount ≤ (8 : Byte).toNat := ⟨rfl, rfl, by decide⟩

theorem test_witness_bad_a_mul : (tinyAt 0 [0xA2, 8]).status = .running ∧
    fetch (tinyAt 0 [0xA2, 8]) = .ok ⟨hardwareOpcodes.code .mul, 8, 0⟩ ∧ regCount ≤ (8 : Byte).toNat := ⟨rfl, rfl, by decide⟩

theorem test_witness_bad_a_cmp : (tinyAt 0 [0xA7, 8]).status = .running ∧
    fetch (tinyAt 0 [0xA7, 8]) = .ok ⟨hardwareOpcodes.code .cmp, 8, 0⟩ ∧ regCount ≤ (8 : Byte).toNat := ⟨rfl, rfl, by decide⟩

theorem test_witness_bad_a_jmp : (tinyAt 0 [0x54, 8]).status = .running ∧
    fetch (tinyAt 0 [0x54, 8]) = .ok ⟨hardwareOpcodes.code .jmp, 8, 0⟩ ∧ regCount ≤ (8 : Byte).toNat := ⟨rfl, rfl, by decide⟩

theorem test_witness_bad_a_jeq : (tinyAt 0 [0x55, 8]).status = .running ∧
    fetch (tinyAt 0 [0x55, 8]) = .ok ⟨hardwareOpcodes.code .jeq, 8, 0⟩ ∧ regCount ≤ (8 : Byte).toNat := ⟨rfl, rfl, by decide⟩

theorem test_witness_bad_a_jne : (tinyAt 0 [0x56, 8]).status = .running ∧
    fetch (tinyAt 0 [0x56, 8]) = .ok ⟨hardwareOpcodes.code .jne, 8, 0⟩ ∧ regCount ≤ (8 : Byte).toNat := ⟨rfl, rfl, by decide⟩

theorem test_witness_bad_b_add : (tinyAt 0 [0xA0, 7, 8]).status = .running ∧
    fetch (tinyAt 0 [0xA0, 7, 8]) = .ok ⟨hardwareOpcodes.code .add, 7, 8⟩ ∧ (7 : Byte).toNat < regCount ∧
    regCount ≤ (8 : Byte).toNat := ⟨rfl, rfl, by decide, by decide⟩

theorem test_witness_bad_b_mul : (tinyAt 0 [0xA2, 7, 8]).status = .running ∧
    fetch (tinyAt 0 [0xA2, 7, 8]) = .ok ⟨hardwareOpcodes.code .mul, 7, 8⟩ ∧ (7 : Byte).toNat < regCount ∧
    regCount ≤ (8 : Byte).toNat := ⟨rfl, rfl, by decide, by decide⟩

theorem test_witness_bad_b_cmp : (tinyAt 0 [0xA7, 7, 8]).status = .running ∧
    fetch (tinyAt 0 [0xA7, 7, 8]) = .ok ⟨hardwareOpcodes.code .cmp, 7, 8⟩ ∧ (7 : Byte).toNat < regCount ∧
    regCount ≤ (8 : Byte).toNat := ⟨rfl, rfl, by decide, by decide⟩

/-- Register operands at both ends of their ranges: 0 and 7 name registers, 8 and 255 do not. -/
theorem test_witness_register_ranges : (0 : Byte).toNat < regCount ∧ (7 : Byte).toNat < regCount ∧
    regCount ≤ (8 : Byte).toNat ∧ regCount ≤ (255 : Byte).toNat := by decide

theorem test_witness_DecodeOfEncode : hardwareOpcodes.Admissible ∧ (Instr.ldi 7 255).wellFormed = true := by decide

theorem test_witness_EncodeOfDecode : decode hardwareOpcodes [0x82, 3, 200, 0xFF] = .ok (.ldi 3 200, [0xFF]) := rfl

theorem test_witness_PlacedWordRunsNext : (tinyAt 253 []).status = .running ∧ (tinyAt 253 []).mem.wf ∧
    (tinyAt 253 []).pc + 2 < (tinyAt 253 []).cfg.memSize ∧ (tinyAt 253 []).cfg.opcodes = hardwareOpcodes ∧
    decodeTableWord 24 0xC80382 = some (.ldi 3 200) := ⟨rfl, by decide, by decide, rfl, rfl⟩

/-- The fault clause of StepRunsDecodedInstruction: PSH in 8 cells. -/
theorem test_witness_StepRunsDecodedInstruction :
    RunsNext (tinyWith 8 .fault [0x45, 0x00]) 0x45 (.psh 0) ∧
    exec (.psh 0) (tinyWith 8 .fault [0x45, 0x00]) = .fault (.memOutOfBounds 255) :=
  ⟨runsNext_of (by decide) (by decide) rfl, rfl⟩

theorem test_witness_CycleEndsInNextOrFault : State.reset.status = .running ∧
    (cycle State.reset).status ≠ .running ∧ (cycle (tinyAt 0 [0x01])).status ≠ .running := by decide

/-- The four clauses of FetchReadsThreeBytes, where they meet: pc 253, 254, 255, 256. -/
theorem test_witness_FetchReadsThreeBytes :
    (tinyAt 253 []).pc + 2 < (tinyAt 253 []).cfg.memSize ∧
    ((tinyAt 254 []).pc + 1 < (tinyAt 254 []).cfg.memSize ∧ (tinyAt 254 []).cfg.memSize ≤ (tinyAt 254 []).pc + 2) ∧
    ((tinyAt 255 []).pc < (tinyAt 255 []).cfg.memSize ∧ (tinyAt 255 []).cfg.memSize ≤ (tinyAt 255 []).pc + 1) ∧
    (tinyAt 256 []).cfg.memSize ≤ (tinyAt 256 []).pc ∧ (tinyAt 256 []).status = .running := by decide

/-- UnknownOpcodeFollowsPolicy and SkippedSetsPcOpcodeHangs: Fault, Skip with bit 4 clear, Skip with bit 4 set. -/
theorem test_witness_UnknownOpcodeFollowsPolicy :
    (fetch State.reset = .ok ⟨0, 0, 0⟩ ∧ State.reset.cfg.policy = .fault) ∧
    (fetch (tinyWith 256 .skip [0xC0]) = .ok ⟨0xC0, 0, 0⟩ ∧ bits 4 4 0xC0 = 0) ∧
    (fetch (tinyWith 256 .skip [0x10]) = .ok ⟨0x10, 0, 0⟩ ∧ bits 4 4 0x10 = 1) ∧
    (∀ k ∈ Mnemonic.all, (0 : Byte) ≠ hardwareOpcodes.code k ∧ (0xC0 : Byte) ≠ hardwareOpcodes.code k ∧
      (0x10 : Byte) ≠ hardwareOpcodes.code k) :=
  ⟨⟨rfl, rfl⟩, ⟨rfl, by decide⟩, ⟨rfl, by decide⟩, by decide⟩

/-- A fault of a cycle: FirstFaultWins, FaultsArePreciseAndTerminal. -/
theorem test_witness_FaultsArePreciseAndTerminal : State.reset.status = .running ∧
    step State.reset = .fault (.unknownOpcode 0) := ⟨rfl, rfl⟩

theorem test_witness_EndedMachineStaysEnded :
    (cycle State.reset).fault = some (.unknownOpcode 0) ∧
    ((cycle (tinyAt 0 [0x01])).fault = none ∧ (cycle (tinyAt 0 [0x01])).running = false) ∧
    (State.reset.fault = none ∧ State.reset.running = true) := by decide

theorem test_witness_RunEndsByHltOrFault :
    ((tinyAt 0 [0x01]).status = .running ∧ (runFor 1 (tinyAt 0 [0x01])).status = .halted) ∧
    (State.reset.status = .running ∧ (runFor 3 State.reset).status = .faulted (.unknownOpcode 0)) := by decide

theorem test_witness_ZeroMemoryIsUnknown :
    (State.reset.cfg.opcodes = hardwareOpcodes ∧ State.reset.pc + 2 < State.reset.cfg.memSize ∧
      State.reset.mem.read State.reset.pc = 0 ∧ State.reset.cfg.policy = .fault) ∧
    (tinyWith 256 .skip []).cfg.policy = .skip ∧ (tinyWith 256 .skip []).status = .running := by decide

theorem inv_of_tiny {s : State} (h1 : s.cfg.Admissible) (h2 : s.mem.wf) (h3 : s.mem.within s.cfg.memSize)
    (h4 : s.fl.exclusive) (h5 : s.pc ≤ s.pcBound) : s.Inv := ⟨h1, h2, h3, h4, h5⟩

/-- PSH R0 with SP = 3 stores a byte at 2, where the next cycle fetches. -/
theorem test_witness_FetchSeesPushedByte :
    ((tinyAt 0 [0x45, 0x00]).setReg 7 3).Inv ∧ RunsNext ((tinyAt 0 [0x45, 0x00]).setReg 7 3) 0x45 (.psh 0) ∧
    after ((tinyAt 0 [0x45, 0x00]).setReg 7 3) State.pc = some ((3 : Byte) - 1).toNat ∧
    (after ((tinyAt 0 [0x45, 0x00]).setReg 7 3) fetch).map Except.isOk = some true :=
  ⟨inv_of_tiny (by decide) (by decide) (by decide) (by decide) (by decide), runsNext_of (by decide) (by decide) rfl,
    by decide, by decide⟩

theorem test_witness_top_of_memory : (tinyAt 254 [0x11]).status = .running ∧
    (tinyAt 254 [0x11]).cfg.memSize ≤ (tinyAt 254 [0x11]).pc + 2 := by decide

/-- The stack clauses at their boundaries: SP 0 pushes to 255; with 8 cells SP 8 pushes to 7 and SP 0 cannot; SP 7
pops and SP 8 cannot. -/
theorem test_witness_stack :
    (State.reset.mem.wf ∧ State.reset.pushAddr < State.reset.cfg.memSize ∧ State.reset.popAddr < State.reset.cfg.memSize) ∧
    ((tinyWith 8 .fault []).setReg 7 8).pushAddr < ((tinyWith 8 .fault []).setReg 7 8).cfg.memSize ∧
    (tinyWith 8 .fault []).cfg.memSize ≤ (tinyWith 8 .fault []).pushAddr ∧
    ((tinyWith 8 .fault []).setReg 7 7).popAddr < ((tinyWith 8 .fault []).setReg 7 7).cfg.memSize ∧
    ((tinyWith 8 .fault []).setReg 7 8).cfg.memSize ≤ ((tinyWith 8 .fault []).setReg 7 8).popAddr := by decide

theorem test_witness_StackPrimitives :
    ((0 : Byte).toNat + 255) % 256 < State.reset.cfg.memSize ∧
    (tinyWith 8 .fault []).cfg.memSize ≤ ((tinyWith 8 .fault []).sp.toNat + 255) % 256 ∧
    State.reset.sp.toNat < State.reset.cfg.memSize := by decide

/-- Both register cases of PSH, POP and CAL: R7 and another. -/
theorem test_witness_register_cases : (⟨(7 : Byte).toNat, by decide⟩ : RegIdx) = spIndex ∧
    (⟨(0 : Byte).toNat, by decide⟩ : RegIdx) ≠ spIndex := by decide

/-- CallThenReturnResumes: the state right after a CAL is itself a state the RET may start from. -/
theorem test_witness_CallThenReturnResumes :
    ((tinyAt 6 [0x50, 0x01]).setReg 1 11).Inv ∧ RunsNext ((tinyAt 6 [0x50, 0x01]).setReg 1 11) 0x50 (.cal 1) ∧
    after ((tinyAt 6 [0x50, 0x01]).setReg 1 11) (fun t => (t.sp, t.mem.read t.popAddr)) = some (255, 8) :=
  ⟨inv_of_tiny (by decide) (by decide) (by decide) (by decide) (by decide), runsNext_of (by decide) (by decide) rfl, by decide⟩

/-- CmpSetsOneFlag: equal, greater and less. -/
theorem test_witness_CmpSetsOneFlag : (State.reset.reg 0).toNat = (State.reset.reg 1).toNat ∧
    ((State.reset.setReg 0 1).reg 0).toNat > ((State.reset.setReg 0 1).reg 1).toNat ∧
    ((State.reset.setReg 1 255).reg 0).toNat < ((State.reset.setReg 1 255).reg 1).toNat := by decide

theorem test_witness_OnlyCmpWritesFlags :
    (cycle (tinyAt 0 [0xA7, 0, 1])).fl ≠ (tinyAt 0 [0xA7, 0, 1]).fl ∧
    exec .hlt State.reset = .next State.reset.halt ∧
    exec (.cmp 0 1) State.reset = .next (State.reset.setFl ⟨true, false, false⟩) := ⟨by decide, rfl, rfl⟩

/-- Two states that differ in G and L, with the four clauses: JNE goes on, a bad operand faults. -/
theorem test_witness_GreaterAndLessAreNeverRead :
    AgreeButGL (tinyAt 0 [0x56, 0]) ((tinyAt 0 [0x56, 0]).setFl ⟨false, true, true⟩) ∧
    (exec (.jne 0) (tinyAt 0 [0x56, 0]) = .next ((tinyAt 0 [0x56, 0]).setPc 0)) ∧
    (exec (.jne 8) (tinyAt 0 [0x56, 0]) = .fault (.illegalRegister 8)) ∧
    (step (tinyAt 0 [0x56, 0]) = .next ((tinyAt 0 [0x56, 0]).setPc 0)) ∧
    step (tinyAt 0 [0x56, 8]) = .fault (.illegalRegister 8) :=
  ⟨⟨rfl, rfl, rfl, rfl, rfl, rfl, rfl, rfl⟩, rfl, rfl, rfl, rfl⟩

/-- OnlyConditionalJumpsReadFlags: a handler and a cycle that are no conditional jump, each with a next state and a
fault, and an ended machine; then a JEQ that G and L leave alone and E decides, and one that faults. -/
theorem test_witness_OnlyConditionalJumpsReadFlags :
    (∀ a, Instr.cmp 0 1 ≠ .jeq a ∧ Instr.cmp 0 1 ≠ .jne a) ∧
    exec (.cmp 0 1) State.reset = .next (State.reset.setFl ⟨true, false, false⟩) ∧
    exec (.cmp 8 1) State.reset = .fault (.illegalRegister 8) ∧
    (∀ op a, ¬RunsNext State.reset op (.jeq a) ∧ ¬RunsNext State.reset op (.jne a)) ∧
    step State.reset = .fault (.unknownOpcode 0) ∧
    step State.reset.halt = .refused .haltedNoCycle ∧
    step (tinyAt 0 [0x01]) = .next ((tinyAt 0 [0x01]).halt.setPc 1) ∧
    (State.reset.reg 0).toNat ≠ State.reset.pc + 2 ∧
    exec (.jeq 0) State.reset = .next (State.reset.setPc 2) ∧
    exec (.jeq 0) (State.reset.setFl ⟨true, false, false⟩) =
      .next ((State.reset.setFl ⟨true, false, false⟩).setPc 0) ∧
    exec (.jne 8) State.reset = .fault (.illegalRegister 8) := by
  refine ⟨by simp, rfl, rfl, fun op a => ⟨?_, ?_⟩, rfl, rfl, rfl, by decide, rfl, rfl, rfl⟩ <;>
    rintro ⟨-, f, hf, -, hd⟩ <;> cases hf <;> cases hd

/-- JneJumpsOnNotEqual: a CMP of unequal registers and the JNE after it. -/
theorem test_witness_JneJumpsOnNotEqual :
    let s := (tinyAt 0 [0xA7, 0, 1, 0x56, 2]).setReg 0 5
    s.cfg.Admissible ∧ RunsNext s 0xA7 (.cmp 0 1) ∧ RunsNext (cycle s) 0x56 (.jne 2) ∧ s.reg 0 ≠ s.reg 1 ∧
    (runFor 2 s).pc = 0 ∧ s.fl.e = false ∧ (cycle s).fl = ⟨false, true, false⟩ :=
  ⟨by decide, runsNext_of (by decide) (by decide) rfl, runsNext_of (by decide) (by decide) rfl, by decide, by decide,
    by decide, by decide⟩

/-- EqualClearBeforeCmp: HLT runs before any CMP. -/
theorem test_witness_EqualClearBeforeCmp :
    (tinyAt 0 [0x01]).fl.e = false ∧ NoCmpWithin 1 (tinyAt 0 [0x01]) := by
  refine ⟨rfl, fun m hm op a b => ?_⟩
  obtain rfl : m = 0 := by omega
  rintro ⟨-, f, hf, -, hd⟩
  cases hf
  cases hd

/-- JmpJumps: a JMP to its own address; JeqJumpsOnEqual and JneJumpsOnNotEqual: both values of E. -/
theorem test_witness_jumps : ((tinyAt 0 [0x54, 0]).reg 0).toNat = (tinyAt 0 [0x54, 0]).pc ∧
    State.reset.fl.e = false ∧ (State.reset.setFl ⟨true, false, false⟩).fl.e = true := by decide

/-- IllFormedOperandsFault: the first bad operand of ADD is the second one, then the first. -/
theorem test_witness_IllFormedOperandsFault : (Instr.add 7 8).wellFormed = false ∧
    exec (.add 7 8) State.reset = .fault (.illegalRegister 8) ∧ exec (.add 9 8) State.reset = .fault (.illegalRegister 9) :=
  ⟨by decide, rfl, rfl⟩

/-- A known opcode, for the last clause of UnknownOpcodeFollowsPolicy. -/
theorem test_witness_known_opcode : fetch (tinyAt 0 [0x01]) = .ok ⟨hardwareOpcodes.code .hlt, 0, 0⟩ := rfl

/-- PushThenPopRestores: every hypothesis on one state. -/
theorem test_witness_PushThenPopRestores : State.reset.mem.wf ∧ (⟨(6 : Byte).toNat, by decide⟩ : RegIdx) ≠ spIndex ∧
    State.reset.pushAddr < State.reset.cfg.memSize := by decide

theorem test_witness_EveryHandlerCompletes : (Instr.add 7 7).wellFormed = true ∧ State.reset.cfg.memSize = 256 := by decide

theorem test_witness_OnlyPrnEmits : (cycle (tinyAt 0 [0x47, 0])).out ≠ (tinyAt 0 [0x47, 0]).out := by decide

theorem test_witness_OnlyHltClearsRunning : (cycle (tinyAt 0 [0x01])).running ≠ (tinyAt 0 [0x01]).running ∧
    (State.reset.halt).running = false ∧ exec .hlt State.reset.halt = .next State.reset.halt := ⟨by decide, rfl, rfl⟩

theorem test_witness_OnlyPushesWriteMemory :
    (cycle ((tinyAt 0 [0x45, 1]).setReg 1 7)).mem.read 255 ≠ ((tinyAt 0 [0x45, 1]).setReg 1 7).mem.read 255 := by decide

theorem test_witness_OnlyNamedRegistersChange : (6 : RegIdx) ≠ spIndex ∧
    (cycle (tinyAt 0 [0x82, 6, 1])).reg 6 ≠ (tinyAt 0 [0x82, 6, 1]).reg 6 := by decide

theorem test_witness_PcMovesByInstruction : (tinyAt 0 [0x01]).cfg.Admissible ∧ RunsNext (tinyAt 0 [0x01]) 0x01 .hlt ∧
    (after (tinyAt 0 [0x01]) State.pc).isSome = true := ⟨by decide, runsNext_of (by decide) (by decide) rfl, by decide⟩

/-- PcStaysInRange: pc reaches 256 by the advance of an LDI at 253; a JMP sets 255. -/
theorem test_witness_PcStaysInRange :
    ((tinyAt 253 [0x82, 0, 1]).cfg.memSize = 256 ∧ (tinyAt 253 [0x82, 0, 1]).cfg.policy = .fault ∧
      after (tinyAt 253 [0x82, 0, 1]) State.pc = some 256) ∧
    setsPcField ((tinyAt 0 [0x54, 0]).mem.read 0) = true ∧
    after ((tinyAt 0 [0x54, 0]).setReg 0 255) State.pc = some 255 := by decide

theorem test_witness_OutOfBoundsOnlyAtTop : State.reset.cfg.memSize ≤ 256 ∧ State.reset.cfg.memSize = 256 ∧
    (tinyAt 254 []).status = .running ∧ 254 ≤ (tinyAt 254 []).pc ∧ (tinyAt 253 []).pc < 254 := by decide

theorem test_witness_ParametersNeverChange : (after (tinyAt 0 [0x01]) State.cfg).isSome = true := by decide

theorem test_witness_StepKeepsInvariant : (tinyAt 0 [0x45, 7]).Inv ∧ (after (tinyAt 0 [0x45, 7]) State.pc).isSome = true :=
  ⟨inv_of_tiny (by decide) (by decide) (by decide) (by decide) (by decide), by decide⟩

theorem test_witness_ResetMeetsInvariant : hardwareConfig.Admissible ∧ State.reset.Inv ∧
    loadImage [1] State.reset = .next (State.reset.setMem [(0, 1)]) :=
  ⟨by decide, inv_of_tiny (by decide) (by decide) (by decide) (by decide) (by decide), rfl⟩

/-- LoadedMachineBeforeFirstCycle, its two memory clauses: addresses 2 and 3 of an image of 3 bytes. -/
theorem test_witness_LoadedMachineBeforeFirstCycle : [0x82, 0, 255].length ≤ hardwareConfig.memSize ∧
    (∀ v ∈ [0x82, 0, 255], v < 256) ∧ 2 < [0x82, 0, 255].length ∧ [0x82, 0, 255].length ≤ 3 := by decide

theorem test_witness_BadImageIsLoadError :
    faultOf (loadImage (List.replicate 9 0) (tinyWith 8 .fault [])) = some (.loadError (.imageTooLong 9)) ∧
    faultOf (loadImage (List.replicate 8 0) (tinyWith 8 .fault [])) = none := by decide

theorem test_witness_MalformedTextNeverRuns : "2".toList ∈ ["00000001".toList, "2".toList] ∧ parseLine "2".toList = .malformed := by
  decide

theorem test_witness_ImageLinesAreRead : isBlank ' ' = true ∧ isBlank '\t' = true ∧ isBlank '#' = false ∧
    parseLine (' ' :: byteLine 0x82) = .byte 0x82 ∧ parseLine [' '] = .blank := by decide

theorem test_parse_lines : parseLines 0 [byteLine 1, [], byteLine 2] = .ok [1, 2] := rfl

theorem test_witness_AssemblyRoundTrip : (Instr.ldi 3 200).wellFormed = true ∧
    assembleLine (instrText (.ldi 3 200)) = some (.ldi 3 200) := by decide

end Sys2Proof.Machine
end

section
/-! SUPPORT. No handler, and so no cycle of a Running machine, answers a refusal; the load answers a loaded machine or
a load error (00_scope.md R15). -/

namespace Sys2Proof.Machine

/-- The two outcomes R15 gives a cycle: a next state or a fault. -/
def NextOrFault (o : Result) : Prop := (∃ t, o = .next t) ∨ ∃ r, o = .fault r

theorem nextOrFault_next (t : State) : NextOrFault (.next t) := .inl ⟨t, rfl⟩

theorem nextOrFault_fault (r : Fault) : NextOrFault (.fault r) := .inr ⟨r, rfl⟩

/-! ### The shared operations -/

theorem orFault_nextOrFault {α : Type} (x : Except Fault α) {k : α → Result} (hk : ∀ v, NextOrFault (k v)) :
    NextOrFault (orFault x k) := by
  cases x with
  | ok v => exact hk v
  | error r => exact nextOrFault_fault r

theorem withReg_nextOrFault (a : Byte) {k : RegIdx → Result} (hk : ∀ d, NextOrFault (k d)) :
    NextOrFault (withReg a k) := by
  by_cases h : a.toNat < regCount
  · rw [withReg_of_lt h]
    exact hk _
  · rw [withReg_of_not_lt h]
    exact nextOrFault_fault _

theorem withRegs_nextOrFault (a b : Byte) {k : RegIdx → RegIdx → Result} (hk : ∀ i j, NextOrFault (k i j)) :
    NextOrFault (withRegs a b k) :=
  withReg_nextOrFault a fun i => withReg_nextOrFault b (hk i)

theorem alu_nextOrFault (sel : AluSelector) (a b : RegIdx) (s : State) : NextOrFault (alu sel a b s) := by
  cases sel with
  | add | mul | cmp => exact nextOrFault_next _
  | other n => exact nextOrFault_fault _

/-! ### The handlers and the cycle -/

/-- Every handler has a meaning in every state: none answers a refusal. -/
theorem exec_nextOrFault (i : Instr) (s : State) : NextOrFault (exec i s) := by
  unfold exec
  cases i with
  | hlt => exact nextOrFault_next _
  | ldi a _ | prn a | jmp a | jeq a | jne a => exact withReg_nextOrFault a fun _ => nextOrFault_next _
  | psh a | pop a | cal a =>
    exact withReg_nextOrFault a fun _ => orFault_nextOrFault _ fun _ => nextOrFault_next _
  | ret => exact orFault_nextOrFault _ fun _ => nextOrFault_next _
  | add a b | mul a b | cmp a b => exact withRegs_nextOrFault a b fun i j => alu_nextOrFault _ i j s

theorem runInstr_nextOrFault (op : Byte) (i : Instr) (s : State) : NextOrFault (runInstr op i s) := by
  unfold runInstr
  obtain ⟨t, ht⟩ | ⟨r, hr⟩ := exec_nextOrFault i s
  · rw [ht]
    exact nextOrFault_next _
  · rw [hr]
    exact nextOrFault_fault r

theorem unknownOpcodeAction_nextOrFault (op : Byte) (s : State) : NextOrFault (unknownOpcodeAction op s) := by
  unfold unknownOpcodeAction
  cases s.cfg.policy with
  | fault => exact nextOrFault_fault _
  | skip => exact nextOrFault_next _

theorem runFetched_nextOrFault (f : Fetched) (s : State) : NextOrFault (runFetched f s) := by
  unfold runFetched
  split
  · exact unknownOpcodeAction_nextOrFault _ s
  · exact nextOrFault_fault _
  · exact runInstr_nextOrFault _ _ s

theorem step_nextOrFault {s : State} (h : s.status = .running) : NextOrFault (step s) := by
  rw [step_running h]
  exact orFault_nextOrFault _ fun f => runFetched_nextOrFault f s

/-! ### The load -/

theorem loadImage_next_or_loadError (image : List Nat) (s : State) :
    (∃ t, loadImage image s = .next t) ∨ ∃ p, loadImage image s = .fault (.loadError p) := by
  unfold loadImage
  cases imageProblem s.cfg.memSize image with
  | none => exact .inl ⟨_, rfl⟩
  | some p => exact .inr ⟨p, rfl⟩

theorem loadText_next_or_loadError (lines : List (List Char)) (s : State) :
    (∃ t, loadText lines s = .next t) ∨ ∃ p, loadText lines s = .fault (.loadError p) := by
  unfold loadText
  cases parseLines 0 lines with
  | error p => exact .inr ⟨p, rfl⟩
  | ok image => exact loadImage_next_or_loadError _ s

/-- Settles O6: no handler answers a refusal, so a Running machine's cycle does not; a machine that has ended answers
only a refusal. -/
theorem cycleEndsInNextOrFault : Obligations.CycleEndsInNextOrFault := by
  refine ⟨fun s => step_nextOrFault, loadImage_next_or_loadError, loadText_next_or_loadError, fun s hs => ?_⟩
  obtain ⟨r, hr⟩ := step_not_running hs
  rw [hr]
  exact ⟨nofun, nofun⟩

end Sys2Proof.Machine
end

section
/-! SUPPORT. What each handler's next state is, and the parts of the state that handlers and cycles leave alone
(40_engine.md R74, R75). -/

namespace Sys2Proof.Machine

/-! ### The next state of each handler -/

section
variable {s t : State} {a b imm : Byte}

theorem withRegs_next_iff {k : RegIdx → RegIdx → Result} :
    withRegs a b k = .next t ↔
      ∃ (ha : a.toNat < regCount) (hb : b.toNat < regCount), k ⟨a.toNat, ha⟩ ⟨b.toNat, hb⟩ = .next t := by
  simp only [withRegs, withReg_next_iff]

theorem exec_hlt_next_iff : exec .hlt s = .next t ↔ s.halt = t := by
  simp [exec, execHlt]

theorem exec_ldi_next_iff :
    exec (.ldi a imm) s = .next t ↔ ∃ h : a.toNat < regCount, s.setReg ⟨a.toNat, h⟩ imm = t := by
  simp [exec, execLdi, withReg_next_iff, immediate]

theorem exec_prn_next_iff :
    exec (.prn a) s = .next t ↔ ∃ h : a.toNat < regCount, s.emit (s.reg ⟨a.toNat, h⟩) = t := by
  simp [exec, execPrn, withReg_next_iff]

theorem exec_psh_next_iff :
    exec (.psh a) s = .next t ↔ ∃ h : a.toNat < regCount, s.pushAddr < s.cfg.memSize ∧
      s.decSp.setMem (s.mem.write s.pushAddr (s.decSp.reg ⟨a.toNat, h⟩)) = t := by
  simp [exec, execPsh, withReg_next_iff, orFault_next_iff, push_ok_iff, -State.decSp_reg]

theorem exec_pop_next_iff :
    exec (.pop a) s = .next t ↔ ∃ h : a.toNat < regCount, s.popAddr < s.cfg.memSize ∧
      (s.setReg ⟨a.toNat, h⟩ (s.mem.read s.popAddr)).incSp = t := by
  simp [exec, execPop, withReg_next_iff, orFault_next_iff, popRead_ok_iff]

theorem exec_cal_next_iff :
    exec (.cal a) s = .next t ↔ ∃ h : a.toNat < regCount, s.pushAddr < s.cfg.memSize ∧
      (s.decSp.setMem (s.mem.write s.pushAddr (returnAddress s.decSp))).setPc
        (targetOf (s.decSp.reg ⟨a.toNat, h⟩)) = t := by
  simp [exec, execCal, withReg_next_iff, orFault_next_iff, push_ok_iff, -State.decSp_reg]

theorem exec_ret_next_iff :
    exec .ret s = .next t ↔ s.popAddr < s.cfg.memSize ∧
      (s.setPc (targetOf (s.mem.read s.popAddr))).incSp = t := by
  simp [exec, execRet, orFault_next_iff, popRead_ok_iff]

theorem exec_add_next_iff :
    exec (.add a b) s = .next t ↔ ∃ (ha : a.toNat < regCount) (hb : b.toNat < regCount),
      s.setReg ⟨a.toNat, ha⟩ (aluSum (s.reg ⟨a.toNat, ha⟩) (s.reg ⟨b.toNat, hb⟩)) = t := by
  simp [exec, execAdd, withRegs_next_iff, alu]

theorem exec_mul_next_iff :
    exec (.mul a b) s = .next t ↔ ∃ (ha : a.toNat < regCount) (hb : b.toNat < regCount),
      s.setReg ⟨a.toNat, ha⟩ (aluProduct (s.reg ⟨a.toNat, ha⟩) (s.reg ⟨b.toNat, hb⟩)) = t := by
  simp [exec, execMul, withRegs_next_iff, alu]

theorem exec_cmp_next_iff :
    exec (.cmp a b) s = .next t ↔ ∃ (ha : a.toNat < regCount) (hb : b.toNat < regCount),
      s.setFl (compareFlags (s.reg ⟨a.toNat, ha⟩) (s.reg ⟨b.toNat, hb⟩)) = t := by
  simp [exec, execCmp, withRegs_next_iff, alu]

theorem exec_jmp_next_iff :
    exec (.jmp a) s = .next t ↔ ∃ h : a.toNat < regCount, s.setPc (targetOf (s.reg ⟨a.toNat, h⟩)) = t := by
  simp [exec, execJmp, withReg_next_iff]

theorem exec_jeq_next_iff :
    exec (.jeq a) s = .next t ↔ ∃ h : a.toNat < regCount, jumpIf s.fl.e ⟨a.toNat, h⟩ s = t := by
  simp [exec, execJeq, withReg_next_iff, equalSet]

theorem exec_jne_next_iff :
    exec (.jne a) s = .next t ↔ ∃ h : a.toNat < regCount, jumpIf (!s.fl.e) ⟨a.toNat, h⟩ s = t := by
  simp [exec, execJne, withReg_next_iff, equalSet]

end

/-! ### What a handler leaves alone -/

/-- What the handler of `i`, taking `s` to `t`, leaves alone besides the parameters and the fault: FL but for CMP, the
output but for PRN, the running flag but for HLT, and pc where the engine advances it. -/
structure HandlerFrame (i : Instr) (s t : State) : Prop where
  cfg : t.cfg = s.cfg
  fault : t.fault = s.fault
  fl : (∀ a b, i ≠ .cmp a b) → t.fl = s.fl
  out : (∀ a, i ≠ .prn a) → t.out = s.out
  running : i ≠ .hlt → t.running = s.running
  pc : i.mnemonic.setsPc = false → t.pc = s.pc

theorem exec_frame {i : Instr} {s t : State} (h : exec i s = .next t) : HandlerFrame i s t := by
  cases i with
  | hlt =>
    obtain rfl := exec_hlt_next_iff.1 h
    exact ⟨rfl, rfl, fun _ => rfl, fun _ => rfl, fun hi => absurd rfl hi, fun _ => rfl⟩
  | ldi a imm =>
    obtain ⟨ha, rfl⟩ := exec_ldi_next_iff.1 h
    exact ⟨rfl, rfl, fun _ => rfl, fun _ => rfl, fun _ => rfl, fun _ => rfl⟩
  | prn a =>
    obtain ⟨ha, rfl⟩ := exec_prn_next_iff.1 h
    exact ⟨rfl, rfl, fun _ => rfl, fun hi => absurd rfl (hi a), fun _ => rfl, fun _ => rfl⟩
  | psh a =>
    obtain ⟨ha, -, rfl⟩ := exec_psh_next_iff.1 h
    exact ⟨rfl, rfl, fun _ => rfl, fun _ => rfl, fun _ => rfl, fun _ => rfl⟩
  | pop a =>
    obtain ⟨ha, -, rfl⟩ := exec_pop_next_iff.1 h
    exact ⟨rfl, rfl, fun _ => rfl, fun _ => rfl, fun _ => rfl, fun _ => rfl⟩
  | cal a =>
    obtain ⟨ha, -, rfl⟩ := exec_cal_next_iff.1 h
    exact ⟨rfl, rfl, fun _ => rfl, fun _ => rfl, fun _ => rfl, nofun⟩
  | ret =>
    obtain ⟨-, rfl⟩ := exec_ret_next_iff.1 h
    exact ⟨rfl, rfl, fun _ => rfl, fun _ => rfl, fun _ => rfl, nofun⟩
  | add a b =>
    obtain ⟨ha, hb, rfl⟩ := exec_add_next_iff.1 h
    exact ⟨rfl, rfl, fun _ => rfl, fun _ => rfl, fun _ => rfl, fun _ => rfl⟩
  | mul a b =>
    obtain ⟨ha, hb, rfl⟩ := exec_mul_next_iff.1 h
    exact ⟨rfl, rfl, fun _ => rfl, fun _ => rfl, fun _ => rfl, fun _ => rfl⟩
  | cmp a b =>
    obtain ⟨ha, hb, rfl⟩ := exec_cmp_next_iff.1 h
    exact ⟨rfl, rfl, fun hi => absurd rfl (hi a b), fun _ => rfl, fun _ => rfl, fun _ => rfl⟩
  | jmp a =>
    obtain ⟨ha, rfl⟩ := exec_jmp_next_iff.1 h
    exact ⟨rfl, rfl, fun _ => rfl, fun _ => rfl, fun _ => rfl, nofun⟩
  | jeq a =>
    obtain ⟨ha, rfl⟩ := exec_jeq_next_iff.1 h
    exact ⟨jumpIf_cfg .., jumpIf_fault .., fun _ => jumpIf_fl .., fun _ => jumpIf_out .., fun _ => jumpIf_running ..,
      nofun⟩
  | jne a =>
    obtain ⟨ha, rfl⟩ := exec_jne_next_iff.1 h
    exact ⟨jumpIf_cfg .., jumpIf_fault .., fun _ => jumpIf_fl .., fun _ => jumpIf_out .., fun _ => jumpIf_running ..,
      nofun⟩

/-! ### Cycles -/

/-- The cycle that runs `i` and does not fault ends in what the handler left, advanced. -/
theorem RunsNext.cycle_eq {s t : State} {op : Byte} {i : Instr} (h : RunsNext s op i) (ht : exec i s = .next t) :
    cycle s = advance op t := by
  simp [cycle, h.step_eq, runInstr, ht, settle]

/-- A part of the state that neither the advance nor a fault touches changes only in a cycle that runs an instruction,
to what its handler made of it. -/
theorem cycle_change {α : Type} {view : State → α} (hadvance : ∀ op s, view (advance op s) = view s)
    (hfault : ∀ s r, view (s.enterFault r) = view s) {s : State} (h : view (cycle s) ≠ view s) :
    ∃ op i t, RunsNext s op i ∧ exec i s = .next t ∧ view (cycle s) = view t := by
  obtain ⟨op, i, t, hi, ht, hc⟩ | ⟨op, hc⟩ | ⟨r, hc⟩ | hc := cycle_cases s
  · exact ⟨op, i, t, hi, ht, by rw [hc, hadvance]⟩
  · exact absurd (by rw [hc, hadvance]) h
  · exact absurd (by rw [hc, hfault]) h
  · exact absurd (by rw [hc]) h

/-- An instruction whose register fields pass the decoder's check is well formed (R73). -/
theorem buildInstr_wellFormed {k : Mnemonic} {a b : Byte} (h : illegalOperand k.format a b = none) :
    (buildInstr k a b).wellFormed = true := by
  cases k with
  | hlt | ret => rfl
  | ldi | prn | psh | pop | cal | jmp | jeq | jne =>
    simpa [Mnemonic.format, illegalOperand, buildInstr, Instr.wellFormed, Instr.regOperands] using h
  | add | mul | cmp =>
    by_cases ha : a.toNat < regCount
    · simpa [Mnemonic.format, illegalOperand, buildInstr, Instr.wellFormed, Instr.regOperands, ha] using h
    · simp [Mnemonic.format, illegalOperand, ha] at h

theorem RunsNext.wellFormed {s : State} {op : Byte} {i : Instr} (h : RunsNext s op i) : i.wellFormed = true := by
  obtain ⟨-, f, -, -, hd⟩ := h
  obtain ⟨k, -, -, hlegal, rfl⟩ := decodeInstr_ok hd
  exact buildInstr_wellFormed hlegal

end Sys2Proof.Machine
end

section
/-! SUPPORT. The status, the running flag and the output (10_state.md R31 to R33). -/

namespace Sys2Proof.Machine

theorem cycle_of_not_running {s : State} (h : s.status ≠ .running) : cycle s = s := by
  obtain ⟨r, hr⟩ := step_not_running h
  rw [cycle, hr]
  rfl

theorem runFor_of_not_running {s : State} (h : s.status ≠ .running) (n : Nat) : runFor n s = s := by
  cases n with
  | zero => rfl
  | succ n =>
    rw [runFor]
    split
    · contradiction
    · rfl
    · rfl

/-- Settles O14: the status is read off the fault and the running flag, and a machine that has ended has no cycle. -/
theorem endedMachineStaysEnded : Obligations.EndedMachineStaysEnded := fun s =>
  ⟨fun r => (s.status_faulted_iff r).2, fun hf hr => s.status_halted_iff.2 ⟨hf, hr⟩,
    fun hf hr => s.status_running_iff.2 ⟨hf, hr⟩, fun h => ⟨cycle_of_not_running h, runFor_of_not_running h⟩⟩

/-- Settles O38: only PRN's handler appends to the output, and a PRN that runs has a checked register field. -/
theorem onlyPrnEmits : Obligations.OnlyPrnEmits := by
  refine ⟨fun s hne => ?_, fun s op a hrun => ?_, fun _ => rfl⟩
  · obtain ⟨op, i, t, hrun, ht, hc⟩ := cycle_change (view := State.out) advance_out State.enterFault_out hne
    by_contra hno
    have hi : ∀ a, i ≠ .prn a := fun a hi => hno ⟨op, a, hi ▸ hrun⟩
    exact hne (hc.trans ((exec_frame ht).out hi))
  · have ha : a.toNat < regCount := by
      simpa [Instr.wellFormed, Instr.regOperands] using hrun.wellFormed
    refine ⟨ha, ?_⟩
    rw [hrun.cycle_eq (exec_prn_next_iff.2 ⟨ha, rfl⟩), advance_out, State.emit_out]

/-- Settles O39: HLT's handler clears the running flag, and every other handler leaves it alone. -/
theorem onlyHltClearsRunning : Obligations.OnlyHltClearsRunning := by
  refine ⟨State.startRun_running, fun s hr t ht => ?_, fun s hne => ?_, fun i s t ht hr => ?_⟩
  · obtain ⟨r, hs⟩ := step_not_running (s := s) (by simp [State.status_running_iff, hr])
    rw [hs] at ht
    cases ht
  · obtain ⟨op, i, t, hrun, ht, hc⟩ := cycle_change (view := State.running) advance_running State.enterFault_running hne
    obtain rfl : i = .hlt := by
      by_contra hi
      exact hne (hc.trans ((exec_frame ht).running hi))
    obtain rfl := exec_hlt_next_iff.1 ht
    exact ⟨(s.status_running_iff.1 hrun.1).2, hc, op, hrun⟩
  · by_cases hi : i = .hlt
    · subst hi
      rw [← exec_hlt_next_iff.1 ht, State.halt_running]
    · rw [(exec_frame ht).running hi, hr]

end Sys2Proof.Machine
end

section
/-! SUPPORT. How a cycle moves pc (10_state.md R24, 40_engine.md R75). -/

namespace Sys2Proof.Machine

theorem encodingShape (i : Instr) : Laws.EncodingShape.Statement i :=
  Laws.EncodingShape.of_operands i (by cases i <;> rfl)

/-- Under an admissible map the advance after `i` moves pc by the length of `i`, unless `i` sets pc itself. -/
theorem RunsNext.advance_pc_eq {s : State} {op : Byte} {i : Instr} (h : RunsNext s op i) (hadm : s.cfg.Admissible)
    (t : State) : (advance op t).pc = if i.mnemonic.setsPc then t.pc else t.pc + i.length := by
  obtain ⟨rfl, -, -⟩ := h.opcode
  obtain ⟨-, hlen, hsets⟩ := encodingShape i _ hadm.2
  rw [advance_pc, hlen, hsets]

/-- A cycle that runs an instruction which sets pc itself ends with the pc its handler left. -/
theorem RunsNext.step_pc_of_setsPc {s t : State} {op : Byte} {i : Instr} (h : RunsNext s op i)
    (hadm : s.cfg.Admissible) (hi : i.mnemonic.setsPc = true) (ht : step s = .next t) :
    ∃ u, exec i s = .next u ∧ t.pc = u.pc := by
  obtain ⟨u, hu, rfl⟩ := runInstr_next_iff.1 (h.step_eq ▸ ht)
  exact ⟨u, hu, by rw [h.advance_pc_eq hadm, if_pos hi]⟩

/-- A cycle that runs any other instruction moves pc by the instruction's length. -/
theorem RunsNext.step_pc_of_not_setsPc {s t : State} {op : Byte} {i : Instr} (h : RunsNext s op i)
    (hadm : s.cfg.Admissible) (hi : i.mnemonic.setsPc = false) (ht : step s = .next t) : t.pc = s.pc + i.length := by
  obtain ⟨u, hu, rfl⟩ := runInstr_next_iff.1 (h.step_eq ▸ ht)
  rw [h.advance_pc_eq hadm, hi, (exec_frame hu).pc hi]
  rfl

/-- Settles O42: the engine moves pc by the length after the eight instructions that do not set it; the other five
leave it as their handlers do. -/
theorem pcMovesByInstruction : Obligations.PcMovesByInstruction := by
  intro s t op i hadm hrun ht
  cases i with
  | hlt | ldi a imm | prn a | psh a | pop a | add a b | mul a b | cmp a b =>
    exact hrun.step_pc_of_not_setsPc hadm rfl ht
  | cal a =>
    obtain ⟨u, hu, hpc⟩ := hrun.step_pc_of_setsPc hadm rfl ht
    obtain ⟨ha, -, rfl⟩ := exec_cal_next_iff.1 hu
    exact ⟨ha, by simp [hpc, targetOf, eq_comm (a := spIndex)]⟩
  | ret =>
    obtain ⟨u, hu, hpc⟩ := hrun.step_pc_of_setsPc hadm rfl ht
    obtain ⟨-, rfl⟩ := exec_ret_next_iff.1 hu
    exact hpc
  | jmp a =>
    obtain ⟨u, hu, hpc⟩ := hrun.step_pc_of_setsPc hadm rfl ht
    obtain ⟨ha, rfl⟩ := exec_jmp_next_iff.1 hu
    exact ⟨ha, hpc⟩
  | jeq a =>
    obtain ⟨u, hu, hpc⟩ := hrun.step_pc_of_setsPc hadm rfl ht
    obtain ⟨ha, rfl⟩ := exec_jeq_next_iff.1 hu
    exact ⟨ha, hpc.trans (jumpIf_pc ..)⟩
  | jne a =>
    obtain ⟨u, hu, hpc⟩ := hrun.step_pc_of_setsPc hadm rfl ht
    obtain ⟨ha, rfl⟩ := exec_jne_next_iff.1 hu
    refine ⟨ha, ?_⟩
    rw [hpc, jumpIf_pc]
    cases s.fl.e <;> rfl

end Sys2Proof.Machine
end

section
/-! SUPPORT. Who writes FL and who reads it (10_state.md R28, R29). The reading part compares the outcomes at `s` and
at `s.setFl f`. -/

namespace Sys2Proof.Machine

/-! ### The writer -/

theorem compareFlags_cases (x y : Byte) :
    compareFlags x y = { e := true, g := false, l := false } ∨ compareFlags x y = { e := false, g := true, l := false } ∨
      compareFlags x y = { e := false, g := false, l := true } := by
  unfold compareFlags
  split
  · exact .inl rfl
  · split
    · exact .inr (.inl rfl)
    · exact .inr (.inr rfl)

/-- Settles O32: every handler but CMP's leaves FL alone, and the comparison has three results. -/
theorem onlyCmpWritesFlags : Obligations.OnlyCmpWritesFlags := by
  refine ⟨fun s hne => ?_, fun i s t ht hi => (exec_frame ht).fl hi, fun a b s t ht => ?_⟩
  · obtain ⟨op, i, t, hrun, ht, hc⟩ := cycle_change (view := State.fl) advance_fl State.enterFault_fl hne
    by_contra hno
    have hi : ∀ a b, i ≠ .cmp a b := fun a b hi => hno ⟨op, a, b, hi ▸ hrun⟩
    exact hne (hc.trans ((exec_frame ht).fl hi))
  · obtain ⟨_, _, rfl⟩ := exec_cmp_next_iff.1 ht
    exact compareFlags_cases _ _

/-! ### Changing the next state of an outcome -/

/-- The outcome with its next state, if it has one, changed by `g`. -/
def mapNext (g : State → State) (o : Result) : Result :=
  match o with
  | .next t => .next (g t)
  | .fault r => .fault r
  | .refused r => .refused r

@[simp] theorem mapNext_next (g : State → State) (t : State) : mapNext g (.next t) = .next (g t) := rfl

@[simp] theorem mapNext_fault (g : State → State) (r : Fault) : mapNext g (.fault r) = .fault r := rfl

@[simp] theorem mapNext_refused (g : State → State) (r : Refusal) : mapNext g (.refused r) = .refused r := rfl

theorem mapNext_withReg (g : State → State) (a : Byte) (k : RegIdx → Result) :
    mapNext g (withReg a k) = withReg a fun r => mapNext g (k r) := by
  by_cases h : a.toNat < regCount
  · simp only [withReg_of_lt h]
  · simp only [withReg_of_not_lt h, mapNext_fault]

theorem mapNext_orFault {α : Type} (g : State → State) (x : Except Fault α) (k : α → Result) :
    mapNext g (orFault x k) = orFault x fun v => mapNext g (k v) := by
  cases x <;> rfl

theorem runInstr_eq_mapNext (op : Byte) (i : Instr) (s : State) : runInstr op i s = mapNext (advance op) (exec i s) :=
  rfl

/-! ### Each operation under other flags -/

theorem advance_setFl (op : Byte) (s : State) (f : Flags) : advance op (s.setFl f) = (advance op s).setFl f := by
  unfold advance; split <;> rfl

theorem jumpIf_setFl (c : Bool) (r : RegIdx) (s : State) (f : Flags) :
    jumpIf c r (s.setFl f) = (jumpIf c r s).setFl f := by
  unfold jumpIf; split <;> rfl

/-- A push of a value that does not come from FL goes the same way under other flags. -/
theorem orFault_push_setFl (s : State) (f : Flags) {v : State → Byte} (hv : v (s.decSp.setFl f) = v s.decSp)
    (k : State → Result) :
    orFault (push (s.setFl f) v) k = orFault (push s v) fun t => k (t.setFl f) := by
  have hdec : (s.setFl f).decSp = s.decSp.setFl f := rfl
  have haddr : (s.setFl f).pushAddr = s.pushAddr := rfl
  unfold push memWrite
  rw [hdec, haddr, hv]
  by_cases h : s.pushAddr < s.decSp.cfg.memSize
  · rw [State.setFl_cfg, if_pos h, if_pos h]
    rfl
  · rw [State.setFl_cfg, if_neg h, if_neg h]
    rfl

/-- CMP's outcome is the same under any flags: it overwrites them. -/
theorem exec_cmp_setFl (a b : Byte) (s : State) (f : Flags) : exec (.cmp a b) (s.setFl f) = exec (.cmp a b) s := rfl

/-- Every other handler carries FL along, if E is as before or the instruction is no conditional jump. -/
theorem exec_setFl {i : Instr} {s : State} {f : Flags} (hcmp : ∀ a b, i ≠ .cmp a b)
    (he : ∀ a, i = .jeq a ∨ i = .jne a → f.e = s.fl.e) :
    exec i (s.setFl f) = mapNext (·.setFl f) (exec i s) := by
  cases i with
  | hlt => rfl
  | ldi a _ | prn a | jmp a =>
    simp only [exec, execLdi, execPrn, execJmp, mapNext_withReg]
    rfl
  | psh a =>
    simp only [exec, execPsh, mapNext_withReg, mapNext_orFault]
    exact congrArg (withReg a) (funext fun r => orFault_push_setFl s f rfl _)
  | pop a =>
    simp only [exec, execPop, mapNext_withReg, mapNext_orFault]
    rfl
  | cal a =>
    simp only [exec, execCal, mapNext_withReg, mapNext_orFault]
    exact congrArg (withReg a) (funext fun r => orFault_push_setFl s f rfl _)
  | ret =>
    simp only [exec, execRet, mapNext_orFault]
    rfl
  | add a b | mul a b =>
    simp only [exec, execAdd, execMul, withRegs, mapNext_withReg]
    rfl
  | cmp a b => exact absurd rfl (hcmp a b)
  | jeq a =>
    simp only [exec, execJeq, equalSet, mapNext_withReg, State.setFl_fl, he a (.inl rfl), jumpIf_setFl, mapNext_next]
  | jne a =>
    simp only [exec, execJne, equalSet, mapNext_withReg, State.setFl_fl, he a (.inr rfl), jumpIf_setFl, mapNext_next]

/-! ### Outcomes that differ in FL alone -/

/-- `o'` is what `IgnoresFlags` asks of the outcome at `s.setFl f`, where `o` is the outcome at `s`. -/
def SameUpToFlags (s : State) (f : Flags) (o o' : Result) : Prop :=
  (∀ t, o = .next t → ∃ g, o' = .next (t.setFl g) ∧ (g = t.fl ∨ (t.fl = s.fl ∧ g = f))) ∧
  (∀ r, o = .fault r → o' = .fault r) ∧
  (∀ r, o = .refused r → o' = .refused r)

theorem ignoresFlags_iff {run : State → Result} {s : State} :
    IgnoresFlags run s ↔ ∀ f, SameUpToFlags s f (run s) (run (s.setFl f)) := Iff.rfl

theorem SameUpToFlags.of_eq (s : State) (f : Flags) (o : Result) : SameUpToFlags s f o o :=
  ⟨fun t ht => ⟨t.fl, ht, .inl rfl⟩, fun _ => id, fun _ => id⟩

theorem SameUpToFlags.of_kept {s : State} (f : Flags) {o : Result} (h : ∀ t, o = .next t → t.fl = s.fl) :
    SameUpToFlags s f o (mapNext (·.setFl f) o) := by
  refine ⟨fun t ht => ⟨f, ?_, .inr ⟨h t ht, rfl⟩⟩, ?_, ?_⟩ <;> simp_all

theorem SameUpToFlags.mapNext_advance {s : State} {f : Flags} {o o' : Result} (op : Byte)
    (h : SameUpToFlags s f o o') : SameUpToFlags s f (mapNext (advance op) o) (mapNext (advance op) o') := by
  obtain ⟨hnext, hfault, hrefused⟩ := h
  cases o with
  | next t =>
    obtain ⟨g, rfl, hg⟩ := hnext t rfl
    refine ⟨?_, nofun, nofun⟩
    rintro _ ⟨⟩
    refine ⟨g, ?_, ?_⟩
    · rw [mapNext_next, advance_setFl]
    · rwa [advance_fl]
  | fault r => rw [hfault r rfl]; exact .of_eq s f _
  | refused r => rw [hrefused r rfl]; exact .of_eq s f _

/-- A handler has the same outcome up to FL, if E is as before or the instruction is no conditional jump. -/
theorem exec_sameUpToFlags {i : Instr} {s : State} {f : Flags} (he : ∀ a, i = .jeq a ∨ i = .jne a → f.e = s.fl.e) :
    SameUpToFlags s f (exec i s) (exec i (s.setFl f)) := by
  by_cases hcmp : ∀ a b, i ≠ .cmp a b
  · rw [exec_setFl hcmp he]
    exact .of_kept f fun t ht => (exec_frame ht).fl hcmp
  · push Not at hcmp
    obtain ⟨a, b, rfl⟩ := hcmp
    rw [exec_cmp_setFl]
    exact .of_eq s f _

theorem unknownOpcodeAction_sameUpToFlags (op : Byte) (s : State) (f : Flags) :
    SameUpToFlags s f (unknownOpcodeAction op s) (unknownOpcodeAction op (s.setFl f)) := by
  unfold unknownOpcodeAction
  rw [State.setFl_cfg]
  cases s.cfg.policy with
  | fault => exact .of_eq s f _
  | skip =>
    simp only [advance_setFl]
    exact .of_kept f (by rintro _ ⟨⟩; exact advance_fl op s)

/-- A cycle has the same outcome up to FL, if E is as before or the cycle runs no conditional jump. -/
theorem step_sameUpToFlags {s : State} {f : Flags}
    (he : ∀ op i, RunsNext s op i → ∀ a, i = .jeq a ∨ i = .jne a → f.e = s.fl.e) :
    SameUpToFlags s f (step s) (step (s.setFl f)) := by
  have hstatus : (s.setFl f).status = s.status := rfl
  by_cases hs : s.status = .running
  · rw [step_running hs, step_running (hstatus.trans hs)]
    have hfetch : fetch (s.setFl f) = fetch s := rfl
    unfold engineCycle
    rw [hfetch]
    cases hf : fetch s with
    | error r => exact .of_eq s f _
    | ok x =>
      simp only [orFault, runFetched, State.setFl_cfg]
      split
      · exact unknownOpcodeAction_sameUpToFlags _ s f
      · exact .of_eq s f _
      · rename_i i hd
        have hrun : RunsNext s x.opcode i := ⟨hs, x, hf, rfl, hd⟩
        rw [runInstr_eq_mapNext, runInstr_eq_mapNext]
        exact (exec_sameUpToFlags (he _ i hrun)).mapNext_advance x.opcode
  · have hstep : step (s.setFl f) = step s := by
      unfold step engineStep
      rw [hstatus]
      cases h : s.status with
      | running => exact absurd h hs
      | halted | faulted => rfl
    rw [hstep]
    exact .of_eq s f _

/-! ### The readers -/

theorem AgreeButGL.eq_setFl {s s' : State} (h : AgreeButGL s s') : s' = s.setFl s'.fl := by
  cases s
  cases s'
  obtain ⟨hcfg, hregs, hpc, -, hrunning, hfault, hout, hmem⟩ := h
  simp_all [State.setFl]

theorem agreeButGL_setFl {s : State} {f : Flags} (he : f.e = s.fl.e) : AgreeButGL s (s.setFl f) :=
  ⟨rfl, rfl, rfl, he, rfl, rfl, rfl, rfl⟩

/-- Where the flags set have the same E, the next states agree but in G and L. -/
theorem SameUpToFlags.agreeButGL {s t : State} {f : Flags} {o' : Result} (he : f.e = s.fl.e)
    (h : SameUpToFlags s f (.next t) o') : ∃ t', o' = .next t' ∧ AgreeButGL t t' := by
  obtain ⟨g, ho, hg⟩ := h.1 t rfl
  refine ⟨t.setFl g, ho, agreeButGL_setFl ?_⟩
  obtain rfl | ⟨hfl, rfl⟩ := hg
  · rfl
  · rw [he, hfl]

/-- Settles O33: the two states differ by flags with the same E, and at most E is read. -/
theorem greaterAndLessAreNeverRead : Obligations.GreaterAndLessAreNeverRead := by
  intro i s s' hagree
  have he : s'.fl.e = s.fl.e := hagree.2.2.2.1
  rw [hagree.eq_setFl]
  have hexec : SameUpToFlags s s'.fl (exec i s) (exec i (s.setFl s'.fl)) := exec_sameUpToFlags fun _ _ => he
  have hstep : SameUpToFlags s s'.fl (step s) (step (s.setFl s'.fl)) := step_sameUpToFlags fun _ _ _ _ _ => he
  exact ⟨fun t ht => (ht ▸ hexec).agreeButGL he, hexec.2.1, fun t ht => (ht ▸ hstep).agreeButGL he, hstep.2.1⟩

/-- A conditional jump whose target is not the next instruction goes to different addresses on the two conditions. -/
theorem jumpIf_pc_ne {c d : Bool} {r : RegIdx} {s : State} (hcd : d ≠ c) (htarget : (s.reg r).toNat ≠ s.pc + 2) :
    (jumpIf d r s).pc ≠ (jumpIf c r s).pc := by
  obtain rfl : d = !c := Bool.eq_not.2 hcd
  rw [jumpIf_pc, jumpIf_pc]
  cases c
  · exact htarget
  · exact htarget.symm

/-- Settles O53: the other handlers and cycles carry FL along or overwrite it; a conditional jump reads E, and jumps or
not by it. -/
theorem onlyConditionalJumpsReadFlags : Obligations.OnlyConditionalJumpsReadFlags := by
  refine ⟨fun i s hi => ignoresFlags_iff.2 fun f => ?_, fun s hno => ignoresFlags_iff.2 fun f => ?_,
    fun i a s f hi he => ?_, fun i a s t u f h hi he htarget ht hu => ?_⟩
  · exact exec_sameUpToFlags fun a h => (not_or.2 (hi a) h).elim
  · refine step_sameUpToFlags fun op i hrun a => ?_
    rintro (rfl | rfl)
    · exact absurd hrun (hno op a).1
    · exact absurd hrun (hno op a).2
  · have hcmp : ∀ x y, i ≠ .cmp x y := by obtain rfl | rfl := hi <;> nofun
    rw [exec_setFl hcmp fun _ _ => he]
    exact ⟨fun t ht => by rw [ht]; rfl, fun r hr => by rw [hr]; rfl⟩
  · obtain rfl | rfl := hi
    · obtain ⟨_, rfl⟩ := exec_jeq_next_iff.1 ht
      obtain ⟨_, rfl⟩ := exec_jeq_next_iff.1 hu
      rw [jumpIf_setFl]
      exact jumpIf_pc_ne he htarget
    · obtain ⟨_, rfl⟩ := exec_jne_next_iff.1 ht
      obtain ⟨_, rfl⟩ := exec_jne_next_iff.1 hu
      rw [jumpIf_setFl]
      exact jumpIf_pc_ne (by simpa using he) htarget

end Sys2Proof.Machine
end

section
/-! SUPPORT. The steps of a cycle: the three reads, the lookup and the unknown-opcode action, the register-field
check, what a handler can fault with, and how a run ends (40_engine.md R69 to R73, R77). -/

namespace Sys2Proof

/-! ### The lookup and the register-field check -/

/-- An opcode byte is unknown exactly when it is no mnemonic's byte, whatever the map (R61). -/
theorem OpcodeMap.lookup_eq_none_iff {m : OpcodeMap} {b : Byte} : m.lookup b = none ↔ ∀ k, b ≠ m.code k := by
  simp [OpcodeMap.lookup, List.find?_eq_none, Mnemonic.mem_all, ne_comm]

theorem decodeInstr_of_lookup_none {m : OpcodeMap} {op : Byte} (h : m.lookup op = none) (a b : Byte) :
    decodeInstr m op a b = .error (.unknownOpcode op) := by
  simp [decodeInstr, h]

theorem decodeInstr_of_illegalOperand {m : OpcodeMap} {op a b x : Byte} {k : Mnemonic} (h : m.lookup op = some k)
    (hx : illegalOperand k.format a b = some x) : decodeInstr m op a b = .error (.illegalRegister x) := by
  simp [decodeInstr, h, hx]

theorem decodeInstr_of_legal {m : OpcodeMap} {op a b : Byte} {k : Mnemonic} (h : m.lookup op = some k)
    (hlegal : illegalOperand k.format a b = none) : decodeInstr m op a b = .ok (buildInstr k a b) := by
  simp [decodeInstr, h, hlegal]

/-- `operand_a` is the first register field of every format that has one. -/
theorem illegalOperand_operandA {f : Format} {a : Byte} (hf : f ≠ .f0) (ha : regCount ≤ a.toNat) (b : Byte) :
    illegalOperand f a b = some a := by
  have ha : ¬a.toNat < regCount := by omega
  cases f with
  | f0 => exact absurd rfl hf
  | f1r | f2rr | f2ri => exact if_neg ha

/-- `operand_b` is a register field in F2RR, checked after `operand_a`. -/
theorem illegalOperand_operandB {a b : Byte} (ha : a.toNat < regCount) (hb : regCount ≤ b.toNat) :
    illegalOperand .f2rr a b = some b := by
  have hb : ¬b.toNat < regCount := by omega
  simp only [illegalOperand, if_pos ha, if_neg hb]

theorem illegalOperand_eq_none {f : Format} {a b : Byte} (ha : f = .f0 ∨ a.toNat < regCount)
    (hb : f = .f2rr → b.toNat < regCount) : illegalOperand f a b = none := by
  cases f with
  | f0 => rfl
  | f1r | f2ri => exact if_pos (ha.resolve_left nofun)
  | f2rr => simp only [illegalOperand, if_pos (ha.resolve_left nofun), if_pos (hb rfl)]

end Sys2Proof

namespace Sys2Proof.Machine

/-! ### The three reads (R69, R71) -/

section
variable {s : State}

theorem memRead_of_lt {a : Nat} (h : a < s.cfg.memSize) : memRead s a = .ok (s.mem.read a) :=
  memRead_ok_iff.2 ⟨h, rfl⟩

theorem memRead_of_le {a : Nat} (h : s.cfg.memSize ≤ a) : memRead s a = .error (.memOutOfBounds a) :=
  memRead_error_iff.2 ⟨h, rfl⟩

theorem step_of_fetch_error {r : Fault} (hs : s.status = .running) (hf : fetch s = .error r) : step s = .fault r := by
  rw [step_running hs, engineCycle, hf, orFault]

theorem step_of_fetch_ok {f : Fetched} (hs : s.status = .running) (hf : fetch s = .ok f) : step s = runFetched f s := by
  rw [step_running hs, engineCycle, hf, orFault]

end

/-- Settles O7: each read that stays below `MEM_SIZE` answers its cell, and the first that does not is the fault. -/
theorem fetchReadsThreeBytes : Obligations.FetchReadsThreeBytes := by
  refine ⟨fun s h => ⟨_, fetch_ok_iff.2 ⟨h, rfl⟩, rfl, rfl, rfl⟩, fun s hs h0 => ?_, fun s hs h0 h1 => ?_,
    fun s hs h1 h2 => ?_⟩
  · apply step_of_fetch_error hs
    simp only [fetch, memRead_of_le h0]
  · apply step_of_fetch_error hs
    simp only [fetch, memRead_of_lt h0, memRead_of_le h1]
  · have h0 : s.pc < s.cfg.memSize := by omega
    apply step_of_fetch_error hs
    simp only [fetch, memRead_of_lt h0, memRead_of_lt h1, memRead_of_le h2]

/-! ### The unknown-opcode action (R72, R103) -/

/-- The advance by the opcode byte's fields: bit 4 decides, bits 7:6 give the length (R75). -/
theorem advance_eq_ite (op : Byte) (s : State) :
    advance op s = if bits 4 4 op = 0 then s.setPc (s.pc + (bits 7 6 op + 1)) else s := by
  have hbit : bits 4 4 op < 2 := Nat.mod_lt _ Nat.two_pos
  have hsets : setsPcField op = true ↔ ¬bits 4 4 op = 0 := by
    rw [setsPcField, beq_iff_eq]
    omega
  by_cases h : bits 4 4 op = 0
  · rw [advance, if_neg (hsets.not.2 (not_not.2 h)), if_pos h]
    rfl
  · rw [advance, if_pos (hsets.2 h), if_neg h]

section
variable {s : State}

theorem step_of_lookup_none {f : Fetched} (hs : s.status = .running) (hf : fetch s = .ok f)
    (hk : s.cfg.opcodes.lookup f.opcode = none) : step s = unknownOpcodeAction f.opcode s := by
  simp only [step_of_fetch_ok hs hf, runFetched, decodeInstr_of_lookup_none hk]

theorem unknownOpcodeAction_of_fault (h : s.cfg.policy = .fault) (op : Byte) :
    unknownOpcodeAction op s = .fault (.unknownOpcode op) := by
  simp only [unknownOpcodeAction, h]

theorem unknownOpcodeAction_of_skip (h : s.cfg.policy = .skip) (op : Byte) :
    unknownOpcodeAction op s = .next (advance op s) := by
  simp only [unknownOpcodeAction, h]

end

/-! ### A known opcode: the register-field check (R73, R102), then the handler -/

section
variable {s : State} {f : Fetched} {k : Mnemonic}

theorem step_of_illegalOperand {x : Byte} (hs : s.status = .running) (hf : fetch s = .ok f)
    (hk : s.cfg.opcodes.lookup f.opcode = some k) (hx : illegalOperand k.format f.operandA f.operandB = some x) :
    step s = .fault (.illegalRegister x) := by
  simp only [step_of_fetch_ok hs hf, runFetched, decodeInstr_of_illegalOperand hk hx]

theorem runsNext_of_legal (hs : s.status = .running) (hf : fetch s = .ok f)
    (hk : s.cfg.opcodes.lookup f.opcode = some k) (hlegal : illegalOperand k.format f.operandA f.operandB = none) :
    RunsNext s f.opcode (buildInstr k f.operandA f.operandB) :=
  ⟨hs, f, hf, rfl, decodeInstr_of_legal hk hlegal⟩

end

/-- Settles O11: an admissible map looks the opcode up as `k`, and the check of `k`'s format does the rest. -/
theorem registerFieldsAreChecked : Obligations.RegisterFieldsAreChecked := by
  intro s f k hadm hs hf hop
  have hk : s.cfg.opcodes.lookup f.opcode = some k := hadm.2.lookup_eq_some_iff.2 hop.symm
  refine ⟨fun hfmt ha => ?_, fun hfmt ha hb => ?_, fun ha hb => ?_⟩
  · exact step_of_illegalOperand hs hf hk (illegalOperand_operandA hfmt ha _)
  · exact step_of_illegalOperand hs hf hk (hfmt ▸ illegalOperand_operandB ha hb)
  · have hrun := runsNext_of_legal hs hf hk (illegalOperand_eq_none ha hb)
    exact ⟨_, buildInstr_mnemonic .., hrun.wellFormed, hrun⟩

/-! ### What a handler can fault with -/

/-- The outcome is no fault, or a fault with `P`. -/
def FaultsWithin (P : Fault → Prop) (o : Result) : Prop := ∀ r, o = .fault r → P r

section
variable {P : Fault → Prop}

theorem faultsWithin_next (t : State) : FaultsWithin P (.next t) := nofun

theorem faultsWithin_fault {r : Fault} (h : P r) : FaultsWithin P (.fault r) := by
  rintro _ ⟨⟩
  exact h

theorem withReg_faultsWithin {a : Byte} {k : RegIdx → Result} (ha : regCount ≤ a.toNat → P (.illegalRegister a))
    (hk : ∀ d, FaultsWithin P (k d)) : FaultsWithin P (withReg a k) := by
  by_cases h : a.toNat < regCount
  · rw [withReg_of_lt h]
    exact hk _
  · rw [withReg_of_not_lt h]
    exact faultsWithin_fault (ha (Nat.le_of_not_lt h))

theorem withRegs_faultsWithin {a b : Byte} {k : RegIdx → RegIdx → Result}
    (ha : regCount ≤ a.toNat → P (.illegalRegister a)) (hb : regCount ≤ b.toNat → P (.illegalRegister b))
    (hk : ∀ i j, FaultsWithin P (k i j)) : FaultsWithin P (withRegs a b k) :=
  withReg_faultsWithin ha fun i => withReg_faultsWithin hb (hk i)

theorem orFault_faultsWithin {α : Type} {x : Except Fault α} {k : α → Result} (hx : ∀ r, x = .error r → P r)
    (hk : ∀ v, FaultsWithin P (k v)) : FaultsWithin P (orFault x k) := by
  cases x with
  | ok v => exact hk v
  | error r => exact faultsWithin_fault (hx r rfl)

theorem of_push_error {s : State} {v : State → Byte}
    (h : s.cfg.memSize ≤ s.pushAddr → P (.memOutOfBounds s.pushAddr)) (r : Fault) (hr : push s v = .error r) : P r := by
  obtain ⟨hle, rfl⟩ := push_error_iff.1 hr
  exact h hle

theorem of_popRead_error {s : State} (h : s.cfg.memSize ≤ s.popAddr → P (.memOutOfBounds s.popAddr)) (r : Fault)
    (hr : popRead s = .error r) : P r := by
  obtain ⟨hle, rfl⟩ := popRead_error_iff.1 hr
  exact h hle

end

/-- The faults a handler can raise from `s`: at a register operand that names no register, or at the cell its stack
access needs (R101, R102). -/
inductive HandlerFault (i : Instr) (s : State) : Fault → Prop where
  | illegalRegister {b : Byte} (hb : b ∈ i.regOperands) (h : regCount ≤ b.toNat) : HandlerFault i s (.illegalRegister b)
  | push (hi : i.mnemonic = .psh ∨ i.mnemonic = .cal) (h : s.cfg.memSize ≤ s.pushAddr) :
    HandlerFault i s (.memOutOfBounds s.pushAddr)
  | pop (hi : i.mnemonic = .pop ∨ i.mnemonic = .ret) (h : s.cfg.memSize ≤ s.popAddr) :
    HandlerFault i s (.memOutOfBounds s.popAddr)

theorem exec_faultsWithin (i : Instr) (s : State) : FaultsWithin (HandlerFault i s) (exec i s) := by
  unfold exec
  cases i with
  | hlt => exact faultsWithin_next _
  | ldi a _ | prn a | jmp a | jeq a | jne a =>
    exact withReg_faultsWithin (.illegalRegister (.head _)) fun _ => faultsWithin_next _
  | psh a =>
    exact withReg_faultsWithin (.illegalRegister (.head _)) fun _ =>
      orFault_faultsWithin (of_push_error (.push (.inl rfl))) fun _ => faultsWithin_next _
  | cal a =>
    exact withReg_faultsWithin (.illegalRegister (.head _)) fun _ =>
      orFault_faultsWithin (of_push_error (.push (.inr rfl))) fun _ => faultsWithin_next _
  | pop a =>
    exact withReg_faultsWithin (.illegalRegister (.head _)) fun _ =>
      orFault_faultsWithin (of_popRead_error (.pop (.inl rfl))) fun _ => faultsWithin_next _
  | ret => exact orFault_faultsWithin (of_popRead_error (.pop (.inr rfl))) fun _ => faultsWithin_next _
  | add a b | mul a b | cmp a b =>
    exact withRegs_faultsWithin (.illegalRegister (.head _)) (.illegalRegister (.tail _ (.head _))) fun _ _ =>
      faultsWithin_next _

theorem runInstr_fault_iff {op : Byte} {i : Instr} {s : State} {r : Fault} :
    runInstr op i s = .fault r ↔ exec i s = .fault r := by
  unfold runInstr
  cases exec i s <;> simp

/-- A cycle that fetches a known opcode faults in the register-field check or in the handler. -/
theorem step_fault_of_lookup {s : State} {f : Fetched} {k : Mnemonic} {r : Fault} (hs : s.status = .running)
    (hf : fetch s = .ok f) (hk : s.cfg.opcodes.lookup f.opcode = some k) (h : step s = .fault r) :
    (∃ x, illegalOperand k.format f.operandA f.operandB = some x ∧ r = .illegalRegister x) ∨
      HandlerFault (buildInstr k f.operandA f.operandB) s r := by
  cases hx : illegalOperand k.format f.operandA f.operandB with
  | some x =>
    rw [step_of_illegalOperand hs hf hk hx] at h
    cases h
    exact .inl ⟨x, rfl, rfl⟩
  | none =>
    rw [(runsNext_of_legal hs hf hk hx).step_eq] at h
    exact .inr (exec_faultsWithin _ s r (runInstr_fault_iff.1 h))

/-- Settles O8: the lookup of an unknown byte fails and the policy decides; the faults of a known one are of other
kinds. -/
theorem unknownOpcodeFollowsPolicy : Obligations.UnknownOpcodeFollowsPolicy := by
  intro s f hs hf
  refine ⟨fun hunknown => ?_, fun ⟨j, hj⟩ b hb => ?_⟩
  · rw [step_of_lookup_none hs hf (OpcodeMap.lookup_eq_none_iff.2 hunknown), ← advance_eq_ite]
    exact ⟨fun hp => unknownOpcodeAction_of_fault hp _, fun hp => unknownOpcodeAction_of_skip hp _⟩
  · cases hk : s.cfg.opcodes.lookup f.opcode with
    | none => exact OpcodeMap.lookup_eq_none_iff.1 hk j hj
    | some k =>
      obtain ⟨_, -, hb⟩ | hb := step_fault_of_lookup hs hf hk hb
      · cases hb
      · cases hb

/-! ### The end of a run (R77) -/

theorem runFor_succ {s : State} (h : s.status = .running) (n : Nat) : runFor (n + 1) s = runFor n (cycle s) := by
  simp only [runFor, h]

/-- A cycle that does not fault leaves the fault part of the status alone. -/
theorem step_next_fault {s t : State} (h : step s = .next t) : t.fault = s.fault := by
  obtain ⟨-, f, -, ⟨-, -, rfl⟩ | ⟨i, u, -, hu, rfl⟩⟩ := step_next_cases h
  · exact advance_fault _ _
  · rw [advance_fault, (exec_frame hu).fault]

/-- The cycle after which a Running machine is no longer Running ran HLT or faulted. -/
theorem cycle_ends {s : State} (hs : s.status = .running) (hend : (cycle s).status ≠ .running) :
    ((cycle s).status = .halted ∧ ∃ op, RunsNext s op .hlt) ∨
      ∃ r, (cycle s).status = .faulted r ∧ step s = .fault r := by
  obtain ⟨hfault, hrun⟩ := s.status_running_iff.1 hs
  obtain ⟨t, ht⟩ | ⟨r, hr⟩ := step_nextOrFault hs
  · have hc : cycle s = t := by rw [cycle, ht]; rfl
    have hcfault : (cycle s).fault = none := by rw [hc, step_next_fault ht, hfault]
    have hcrun : (cycle s).running ≠ s.running := fun h =>
      hend ((State.status_running_iff _).2 ⟨hcfault, h.trans hrun⟩)
    obtain ⟨-, -, hhlt, -⟩ := onlyHltClearsRunning
    obtain ⟨-, hclear, hop⟩ := hhlt s hcrun
    exact .inl ⟨(State.status_halted_iff _).2 ⟨hcfault, hclear⟩, hop⟩
  · exact .inr ⟨r, by rw [cycle, hr]; rfl, hr⟩

/-- Settles O15, by induction on the number of cycles: the run ends in its first cycle, or in the run after it. -/
theorem runEndsByHltOrFault : Obligations.RunEndsByHltOrFault := by
  intro s n
  induction n generalizing s with
  | zero => exact fun hs hend => absurd hs hend
  | succ n ih =>
    intro hs hend
    rw [runFor_succ hs] at hend ⊢
    by_cases hc : (cycle s).status = .running
    · obtain ⟨hh, k, op, hk, hop⟩ | ⟨r, hr, k, hk, hstep⟩ := ih (cycle s) hc hend
      · exact .inl ⟨hh, k + 1, op, by omega, by rwa [runFor_succ hs]⟩
      · exact .inr ⟨r, hr, k + 1, by omega, by rwa [runFor_succ hs]⟩
    · rw [runFor_of_not_running hc]
      obtain ⟨hh, op, hop⟩ | ⟨r, hr, hstep⟩ := cycle_ends hs hc
      · exact .inl ⟨hh, 0, op, by omega, hop⟩
      · exact .inr ⟨r, hr, 0, by omega, hstep⟩

end Sys2Proof.Machine
end

section
/-! SUPPORT. The lines that the rule of every instruction has (the engine's advance, the check of `operand_a`, the top
of memory), and with them the rules of HLT, LDI and PRN (41_basic.md R81 to R83). -/

namespace Sys2Proof.Machine

/-! ### The lines common to the rules -/

/-- Under an admissible map the advance after `i` moves pc by the length of `i`, or does nothing if `i` sets pc. -/
theorem RunsNext.advance_eq {s : State} {op : Byte} {i : Instr} (h : RunsNext s op i) (hadm : s.cfg.Admissible)
    (t : State) : advance op t = if i.mnemonic.setsPc then t else t.setPc (t.pc + i.length) := by
  obtain ⟨rfl, -, -⟩ := h.opcode
  obtain ⟨-, hlen, hsets⟩ := encodingShape i _ hadm.2
  rw [advance, hlen, hsets]

theorem RunsNext.step_of_exec_next {s t : State} {op : Byte} {i : Instr} (h : RunsNext s op i)
    (ht : exec i s = .next t) : step s = .next (advance op t) :=
  h.step_eq.trans (runInstr_next_iff.2 ⟨t, ht, rfl⟩)

theorem engineAdvances {i : Instr} (hi : i.mnemonic.setsPc = false) : EngineAdvances i i.length := by
  intro s op t hadm hrun ht
  rw [hrun.step_of_exec_next ht, hrun.advance_eq hadm, hi]
  rfl

theorem faultsOnOperandA {k : Mnemonic} (hk : k.format ≠ .f0) : FaultsOnOperandA k := by
  intro s f hadm hs hf hop ha
  obtain ⟨hfault, -, -⟩ := registerFieldsAreChecked s f k hadm hs hf hop
  exact hfault hk ha

theorem faultsAtTopOfMemory : FaultsAtTopOfMemory := by
  intro s hs htop
  cases hf : fetch s with
  | ok f =>
    obtain ⟨hroom, -⟩ := fetch_ok_iff.1 hf
    omega
  | error r =>
    obtain ⟨addr, rfl, -⟩ := fetch_error hf
    exact ⟨addr, step_of_fetch_error hs hf⟩

/-! ### The rules of HLT, LDI and PRN -/

theorem keepsRegs_setReg (s : State) (d : RegIdx) (v : Byte) : KeepsRegs [d] s (s.setReg d v) :=
  fun _ hr => s.setReg_reg_other v (List.ne_of_not_mem_cons hr)

/-- Settles O18: the state HLT leaves, moved on by one cell, is Halted, and a Halted machine stays as it is. -/
theorem hltStopsTheMachine : Obligations.HltStopsTheMachine := by
  refine ⟨⟨rfl, rfl, rfl, rfl⟩, fun s => ?_, engineAdvances rfl, fun s op hadm hrun => ?_, faultsAtTopOfMemory⟩
  · exact ⟨s.halt, exec_hlt_next_iff.2 rfl, rfl, fun _ _ => rfl, fun _ _ => rfl, rfl, rfl, rfl, rfl, rfl⟩
  · obtain ⟨hfault, -⟩ := s.status_running_iff.1 hrun.1
    have hhalted : (s.halt.setPc (s.pc + 1)).status = .halted := (State.status_halted_iff _).2 ⟨hfault, rfl⟩
    refine ⟨s.halt.setPc (s.pc + 1), engineAdvances rfl s op _ hadm hrun (exec_hlt_next_iff.2 rfl), hhalted, rfl, ?_⟩
    exact runFor_of_not_running (by simp [hhalted])

/-- Settles O19: the state LDI leaves is the register write, whose frame is every other register and field. -/
theorem ldiLoadsImmediate : Obligations.LdiLoadsImmediate := by
  refine ⟨⟨rfl, rfl, rfl, rfl⟩, fun a imm s h => ?_, fun _ _ => engineAdvances rfl, faultsOnOperandA (by decide)⟩
  exact ⟨s.setReg ⟨a.toNat, h⟩ imm, exec_ldi_next_iff.2 ⟨h, rfl⟩, s.setReg_reg_same _ _, keepsRegs_setReg s _ _,
    fun _ _ => rfl, rfl, rfl, rfl, rfl, rfl, rfl⟩

/-- Settles O20: the state PRN leaves is the one with the register's value emitted. -/
theorem prnEmitsRegister : Obligations.PrnEmitsRegister := by
  refine ⟨⟨rfl, rfl, rfl, rfl⟩, fun a s h => ?_, fun _ => engineAdvances rfl, faultsOnOperandA (by decide)⟩
  exact ⟨s.emit (s.reg ⟨a.toNat, h⟩), exec_prn_next_iff.2 ⟨h, rfl⟩, rfl, fun _ _ => rfl, fun _ _ => rfl, rfl, rfl, rfl,
    rfl, rfl⟩

end Sys2Proof.Machine
end

section
/-! SUPPORT. The state a push and a pop leave, and with them the rules of PSH, POP, CAL and RET (42_stack.md R84 to
R88). -/

namespace Sys2Proof.Machine

/-! ### The state a push leaves (R84) -/

/-- `s` with SP decremented and `v` in the cell SP then names. -/
def State.pushed (s : State) (v : Byte) : State := s.decSp.setMem (s.mem.write s.pushAddr v)

section
variable {s : State}

theorem push_of_lt (h : s.pushAddr < s.cfg.memSize) (v : State → Byte) : push s v = .ok (s.pushed (v s.decSp)) :=
  push_ok_iff.2 ⟨h, rfl⟩

theorem push_of_le (h : s.cfg.memSize ≤ s.pushAddr) (v : State → Byte) :
    push s v = .error (.memOutOfBounds s.pushAddr) :=
  push_error_iff.2 ⟨h, rfl⟩

theorem State.pushed_sp (s : State) (v : Byte) : (s.pushed v).sp = s.sp - 1 := s.decSp_sp

theorem State.pushed_read_pushAddr (h : s.mem.wf) (v : Byte) : (s.pushed v).mem.read s.pushAddr = v :=
  Memory.read_write_same s.mem s.pushAddr v h

theorem keepsRegs_pushed (s : State) (v : Byte) : KeepsRegs [spIndex] s (s.pushed v) :=
  keepsRegs_setReg s spIndex (s.sp - 1)

theorem keepsMem_pushed (s : State) (v : Byte) : KeepsMem [s.pushAddr] s (s.pushed v) :=
  fun _ ha => Memory.read_write_other s.mem v (List.ne_of_not_mem_cons ha)

/-- A register read after the decrement: R7 is one less (R85, R87). -/
theorem State.decSp_reg_eq (s : State) (d : RegIdx) :
    s.decSp.reg d = if d = spIndex then s.sp - 1 else s.reg d := by
  simp only [State.decSp_reg, eq_comm (a := spIndex)]

/-! ### The read and the increment of a pop (R84) -/

theorem popRead_of_lt (h : s.popAddr < s.cfg.memSize) : popRead s = .ok (s.mem.read s.popAddr) :=
  memRead_of_lt h

theorem popRead_of_le (h : s.cfg.memSize ≤ s.popAddr) : popRead s = .error (.memOutOfBounds s.popAddr) :=
  memRead_of_le h

theorem keepsRegs_incSp (s : State) : KeepsRegs [spIndex] s s.incSp := keepsRegs_setReg s spIndex (s.sp + 1)

theorem KeepsRegs.trans {t u : State} {xs ys : List RegIdx} (h : KeepsRegs xs s t) (h' : KeepsRegs ys t u) :
    KeepsRegs (xs ++ ys) s u := by
  intro r hr
  obtain ⟨hx, hy⟩ := not_or.1 (List.mem_append.not.1 hr)
  exact (h' r hy).trans (h r hx)

theorem State.setReg_spIndex_sp (s : State) (v : Byte) : (s.setReg spIndex v).sp = v := s.setReg_reg_same spIndex v

theorem State.setReg_sp_of_ne {d : RegIdx} (h : d ≠ spIndex) (v : Byte) : (s.setReg d v).sp = s.sp :=
  s.setReg_reg_other v h.symm

theorem State.incSp_reg_of_ne {d : RegIdx} (h : d ≠ spIndex) : s.incSp.reg d = s.reg d :=
  s.setReg_reg_other _ h

end

/-- Settles O21: the address of a push is the decremented SP and that of a pop is SP, both modulo 256. -/
theorem stackPrimitives : Obligations.StackPrimitives := by
  refine ⟨fun s v hwf h => ?_, fun s v h => ?_, fun s => popRead_of_lt, fun s => popRead_of_le, fun s => ?_⟩
  · rw [← s.pushAddr_mod] at h ⊢
    exact ⟨s.pushed v, push_of_lt h _, by rw [s.pushed_sp, s.pushAddr_eq], State.pushed_read_pushAddr hwf v⟩
  · rw [← s.pushAddr_mod] at h ⊢
    exact push_of_le h _
  · rw [s.incSp_sp, BitVec.toNat_add]
    rfl

/-! ### The rules of PSH, POP, CAL and RET -/

/-- The engine does not move pc after an instruction that sets it (R75, R80). -/
theorem engineLeavesPc {i : Instr} (hi : i.mnemonic.setsPc = true) : EngineLeavesPc i := by
  intro s op t hadm hrun ht
  rw [hrun.step_of_exec_next ht, hrun.advance_eq hadm, if_pos hi]

/-- The two bytes after an opcode that runs exist, so the address after a two-byte instruction fits a byte (R36). -/
theorem RunsNext.pc_add_two_le {s : State} {op : Byte} {i : Instr} (h : RunsNext s op i) (hadm : s.cfg.Admissible) :
    s.pc + 2 ≤ 255 := by
  obtain ⟨-, -, hroom⟩ := h.opcode
  obtain ⟨⟨-, hsize⟩, -⟩ := hadm
  omega

/-- Settles O22: PSH leaves the state a push of the register leaves, or the fault of the push. -/
theorem pshPushesRegister : Obligations.PshPushesRegister := by
  refine ⟨⟨rfl, rfl, rfl, rfl⟩, fun a s h hwf hroom => ?_, fun a s h hle => ?_, fun _ => engineAdvances rfl,
    faultsOnOperandA (by decide)⟩
  · refine ⟨s.pushed (s.decSp.reg ⟨a.toNat, h⟩), exec_psh_next_iff.2 ⟨h, hroom, rfl⟩, s.pushed_sp _, s.pushAddr_eq,
      ?_, keepsRegs_pushed s _, keepsMem_pushed s _, rfl, rfl, rfl, rfl, rfl, rfl⟩
    rw [State.pushed_read_pushAddr hwf, s.decSp_reg_eq]
  · simp only [exec, execPsh, withReg_of_lt h, push_of_le hle, orFault]

/-- Settles O23: POP leaves the register write followed by the increment, which meet where the register is R7. -/
theorem popPopsRegister : Obligations.PopPopsRegister := by
  refine ⟨⟨rfl, rfl, rfl, rfl⟩, fun a s h hroom => ?_, fun a s h hle => ?_, fun _ => engineAdvances rfl,
    faultsOnOperandA (by decide)⟩
  · refine ⟨(s.setReg ⟨a.toNat, h⟩ (s.mem.read s.popAddr)).incSp, exec_pop_next_iff.2 ⟨h, hroom, rfl⟩, rfl,
      fun hne => ⟨?_, ?_⟩, fun heq => ?_, (keepsRegs_setReg s _ _).trans (keepsRegs_incSp _), fun _ _ => rfl, rfl,
      rfl, rfl, rfl, rfl, rfl⟩
    · rw [State.incSp_reg_of_ne hne, State.setReg_reg_same]
    · rw [State.incSp_sp, State.setReg_sp_of_ne hne]
    · rw [State.incSp_sp, heq, State.setReg_spIndex_sp]
  · simp only [exec, execPop, withReg_of_lt h, popRead_of_le hle, orFault]

/-- Settles O24: CAL leaves the state a push of the return address leaves, with pc the register read from it, or the
fault of the push. -/
theorem calCallsSubroutine : Obligations.CalCallsSubroutine := by
  refine ⟨⟨rfl, rfl, rfl, rfl⟩, fun a s h hwf hroom => ?_, fun s op a hadm hrun => hrun.pc_add_two_le hadm,
    fun a s h hle => ?_, fun _ => engineLeavesPc rfl, faultsOnOperandA (by decide), faultsAtTopOfMemory⟩
  · refine ⟨(s.pushed (returnAddress s)).setPc (targetOf (s.decSp.reg ⟨a.toNat, h⟩)),
      exec_cal_next_iff.2 ⟨h, hroom, rfl⟩, s.pushed_sp (returnAddress s), s.pushAddr_eq, ?_, ?_,
      keepsRegs_pushed s (returnAddress s), keepsMem_pushed s (returnAddress s), rfl, rfl, rfl, rfl, rfl⟩
    · rw [State.setPc_mem, State.pushed_read_pushAddr hwf]
      exact BitVec.toNat_ofNat ..
    · rw [State.setPc_pc, targetOf, s.decSp_reg_eq]
  · simp only [exec, execCal, withReg_of_lt h, push_of_le hle, orFault]

/-- Settles O25: RET leaves the popped cell in pc and SP incremented, or the fault of the pop's read. -/
theorem retReturns : Obligations.RetReturns := by
  refine ⟨⟨rfl, rfl, rfl, rfl⟩, fun s hroom => ?_, fun s hle => ?_, engineLeavesPc rfl, faultsAtTopOfMemory⟩
  · exact ⟨(s.setPc (targetOf (s.mem.read s.popAddr))).incSp, exec_ret_next_iff.2 ⟨hroom, rfl⟩, rfl, rfl,
      State.incSp_sp _, keepsRegs_incSp _, fun _ _ => rfl, rfl, rfl, rfl, rfl, rfl⟩
  · simp only [exec, execRet, popRead_of_le hle, orFault]

end Sys2Proof.Machine
end

section
/-! SUPPORT. The check of `operand_b`, the three results of the comparison, and with them the rules of ADD, MUL and CMP
(43_alu.md R91 to R93); the faults of a cycle, among which the ALU's is not (R94). -/

namespace Sys2Proof.Machine

/-! ### The rules of ADD, MUL and CMP -/

theorem faultsOnOperandB {k : Mnemonic} (hk : k.format = .f2rr) : FaultsOnOperandB k := by
  intro s f hadm hs hf hop ha hb
  obtain ⟨-, hfault, -⟩ := registerFieldsAreChecked s f k hadm hs hf hop
  exact hfault hk ha hb

section
variable {x y : Byte}

theorem compareFlags_of_toNat_eq (h : x.toNat = y.toNat) :
    compareFlags x y = { e := true, g := false, l := false } :=
  if_pos (BitVec.eq_of_toNat_eq h)

theorem compareFlags_of_toNat_gt (h : x.toNat > y.toNat) :
    compareFlags x y = { e := false, g := true, l := false } := by
  have hne : x ≠ y := fun heq => h.ne' (congrArg BitVec.toNat heq)
  rw [compareFlags, if_neg hne, if_pos h]

theorem compareFlags_of_toNat_lt (h : x.toNat < y.toNat) :
    compareFlags x y = { e := false, g := false, l := true } := by
  have hne : x ≠ y := fun heq => h.ne (congrArg BitVec.toNat heq)
  rw [compareFlags, if_neg hne, if_neg h.asymm]

end

/-- Settles O28: the state ADD leaves is the write of the sum to the first register. -/
theorem addAddsRegisters : Obligations.AddAddsRegisters := by
  refine ⟨⟨rfl, rfl, rfl, rfl⟩, fun a b s ha hb => ?_, fun _ _ => engineAdvances rfl, faultsOnOperandA (by decide),
    faultsOnOperandB rfl⟩
  refine ⟨s.setReg ⟨a.toNat, ha⟩ (aluSum (s.reg ⟨a.toNat, ha⟩) (s.reg ⟨b.toNat, hb⟩)),
    exec_add_next_iff.2 ⟨ha, hb, rfl⟩, ?_, keepsRegs_setReg s _ _, fun _ _ => rfl, rfl, rfl, rfl, rfl, rfl, rfl⟩
  rw [State.setReg_reg_same, aluSum_toNat]

/-- Settles O29: the state MUL leaves is the write of the reduced product to the first register. -/
theorem mulMultipliesRegisters : Obligations.MulMultipliesRegisters := by
  refine ⟨⟨rfl, rfl, rfl, rfl⟩, fun a b s ha hb => ?_, fun _ _ => engineAdvances rfl, faultsOnOperandA (by decide),
    faultsOnOperandB rfl⟩
  refine ⟨s.setReg ⟨a.toNat, ha⟩ (aluProduct (s.reg ⟨a.toNat, ha⟩) (s.reg ⟨b.toNat, hb⟩)),
    exec_mul_next_iff.2 ⟨ha, hb, rfl⟩, ?_, keepsRegs_setReg s _ _, fun _ _ => rfl, rfl, rfl, rfl, rfl, rfl, rfl⟩
  rw [State.setReg_reg_same, aluProduct_toNat]

/-- Settles O30: the state CMP leaves has the comparison's flags, one of three results, in place of the old ones. -/
theorem cmpSetsOneFlag : Obligations.CmpSetsOneFlag := by
  refine ⟨⟨rfl, rfl, rfl, rfl⟩, fun a b s ha hb => ?_, fun _ _ => engineAdvances rfl, faultsOnOperandA (by decide),
    faultsOnOperandB rfl⟩
  exact ⟨s.setFl (compareFlags (s.reg ⟨a.toNat, ha⟩) (s.reg ⟨b.toNat, hb⟩)), exec_cmp_next_iff.2 ⟨ha, hb, rfl⟩,
    compareFlags_of_toNat_eq, compareFlags_of_toNat_gt, compareFlags_of_toNat_lt, fun _ _ => rfl, fun _ _ => rfl, rfl,
    rfl, rfl, rfl, rfl⟩

/-! ### The faults of a cycle (R94, R105) -/

theorem unknownOpcodeAction_fault {op : Byte} {s : State} {r : Fault} (h : unknownOpcodeAction op s = .fault r) :
    r = .unknownOpcode op := by
  cases hp : s.cfg.policy with
  | fault =>
    rw [unknownOpcodeAction_of_fault hp] at h
    cases h
    rfl
  | skip =>
    rw [unknownOpcodeAction_of_skip hp] at h
    cases h

/-- A fault of a cycle is raised by one of the three reads, by the unknown-opcode action, by the register-field check or
by a handler. -/
theorem step_fault_cases {s : State} {r : Fault} (h : step s = .fault r) :
    fetch s = .error r ∨ ∃ f, fetch s = .ok f ∧
      (r = .unknownOpcode f.opcode ∨ (∃ x, r = .illegalRegister x) ∨ ∃ i, HandlerFault i s r) := by
  by_cases hs : s.status = .running
  · cases hf : fetch s with
    | error q =>
      rw [step_of_fetch_error hs hf] at h
      cases h
      exact .inl rfl
    | ok f =>
      refine .inr ⟨f, rfl, ?_⟩
      cases hk : s.cfg.opcodes.lookup f.opcode with
      | none =>
        rw [step_of_lookup_none hs hf hk] at h
        exact .inl (unknownOpcodeAction_fault h)
      | some k =>
        obtain ⟨x, -, hx⟩ | hi := step_fault_of_lookup hs hf hk h
        · exact .inr (.inl ⟨x, hx⟩)
        · exact .inr (.inr ⟨_, hi⟩)
  · obtain ⟨q, hq⟩ := step_not_running hs
    rw [hq] at h
    cases h

theorem HandlerFault.ne_unsupportedAluOp {i : Instr} {s : State} {r : Fault} (h : HandlerFault i s r) (n : Nat) :
    r ≠ .unsupportedAluOp n := by
  cases h with
  | illegalRegister | push | pop => exact nofun

/-- Settles O31: a handler faults at a register operand or a stack access, and the rest of a cycle adds the faults of
the reads, the lookup and the register-field check. -/
theorem unsupportedAluOpUnreachable : Obligations.UnsupportedAluOpUnreachable := by
  refine ⟨fun _ _ _ _ => rfl, fun i s n h => ?_, fun s n h => ?_⟩
  · exact (exec_faultsWithin i s _ h).ne_unsupportedAluOp n rfl
  · obtain hf | ⟨f, -, hop | ⟨x, hx⟩ | ⟨i, hi⟩⟩ := step_fault_cases h
    · obtain ⟨addr, haddr, -⟩ := fetch_error hf
      cases haddr
    · cases hop
    · cases hx
    · exact hi.ne_unsupportedAluOp n rfl

end Sys2Proof.Machine
end

section
/-! SUPPORT. E before any CMP, and the rules of JMP, JEQ and JNE (44_branch.md R96 to R98). -/

namespace Sys2Proof.Machine

/-! ### The state a jump leaves (R95) -/

section
variable {c : Bool} {r : RegIdx} {s : State}

theorem jumpIf_pc_of_taken (h : c = true) : (jumpIf c r s).pc = (s.reg r).toNat := by
  rw [jumpIf_pc, if_pos h]

theorem jumpIf_pc_of_not_taken (h : c = false) : (jumpIf c r s).pc = s.pc + 2 := by
  rw [jumpIf_pc, h, if_neg Bool.false_ne_true]

end

/-- A jump, taken or not, changes nothing but pc. -/
theorem jumpIf_frame (c : Bool) (r : RegIdx) (s : State) :
    KeepsRegs [] s (jumpIf c r s) ∧ KeepsMem [] s (jumpIf c r s) ∧ (jumpIf c r s).fl = s.fl ∧
      (jumpIf c r s).out = s.out ∧ (jumpIf c r s).running = s.running ∧ KeepsRest s (jumpIf c r s) :=
  ⟨fun j _ => jumpIf_reg c r j s, fun addr _ => congrArg (·.read addr) (jumpIf_mem c r s), jumpIf_fl c r s,
    jumpIf_out c r s, jumpIf_running c r s, jumpIf_cfg c r s, jumpIf_fault c r s⟩

section
variable {s : State}

/-- A cycle that runs an instruction which sets pc itself ends in what the handler left (R75, R80). -/
theorem RunsNext.cycle_eq_of_setsPc {t : State} {op : Byte} {i : Instr} (h : RunsNext s op i) (hadm : s.cfg.Admissible)
    (hi : i.mnemonic.setsPc = true) (ht : exec i s = .next t) : cycle s = t := by
  rw [cycle, engineLeavesPc hi s op t hadm h ht, settle]

/-! ### A JMP to its own address (R96) -/

/-- A cycle that changes nothing is repeated for ever. -/
theorem runFor_of_cycle_eq_self (h : cycle s = s) (n : Nat) : runFor n s = s := by
  induction n with
  | zero => rfl
  | succ n ih =>
    by_cases hs : s.status = .running
    · rw [runFor_succ hs, h, ih]
    · exact runFor_of_not_running hs _

theorem State.setPc_eq_self {target : Nat} (h : target = s.pc) : s.setPc target = s := by
  subst h
  rfl

/-! ### E before any CMP (R30) -/

theorem cycle_fl_of_no_cmp (h : ∀ op a b, ¬RunsNext s op (.cmp a b)) : (cycle s).fl = s.fl := by
  by_contra hne
  obtain ⟨hwriter, -⟩ := onlyCmpWritesFlags
  obtain ⟨op, a, b, hrun⟩ := hwriter s hne
  exact h op a b hrun

theorem NoCmpWithin.after_cycle {n : Nat} (h : NoCmpWithin (n + 1) s) (hs : s.status = .running) :
    NoCmpWithin n (cycle s) := by
  intro m hm
  rw [← runFor_succ hs]
  exact h (m + 1) (Nat.succ_lt_succ hm)

/-- A run without a CMP leaves FL alone, by induction on the number of cycles. -/
theorem runFor_fl_of_noCmpWithin {n : Nat} (h : NoCmpWithin n s) : (runFor n s).fl = s.fl := by
  induction n generalizing s with
  | zero => rfl
  | succ n ih =>
    by_cases hs : s.status = .running
    · rw [runFor_succ hs, ih (h.after_cycle hs)]
      exact cycle_fl_of_no_cmp (h 0 n.succ_pos)
    · rw [runFor_of_not_running hs]

theorem equalClearBeforeCmp : EqualClearBeforeCmp := by
  refine ⟨fun _ => rfl, fun n s he h => ?_⟩
  rw [runFor_fl_of_noCmpWithin h, he]

/-! ### A JNE after a CMP (R98) -/

theorem compareFlags_e_of_ne {x y : Byte} (h : x ≠ y) : (compareFlags x y).e = false := by
  rw [compareFlags, if_neg h]
  split <;> rfl

theorem RunsNext.cycle_cmp {op a b : Byte} (h : RunsNext s op (.cmp a b)) (ha : a.toNat < regCount)
    (hb : b.toNat < regCount) :
    cycle s = advance op (s.setFl (compareFlags (s.reg ⟨a.toNat, ha⟩) (s.reg ⟨b.toNat, hb⟩))) :=
  h.cycle_eq (exec_cmp_next_iff.2 ⟨ha, hb, rfl⟩)

theorem RunsNext.cycle_jne_pc {op c : Byte} (h : RunsNext s op (.jne c)) (hadm : s.cfg.Admissible)
    (hc : c.toNat < regCount) (he : s.fl.e = false) : (cycle s).pc = (s.reg ⟨c.toNat, hc⟩).toNat := by
  rw [h.cycle_eq_of_setsPc hadm rfl (exec_jne_next_iff.2 ⟨hc, rfl⟩)]
  exact jumpIf_pc_of_taken (congrArg not he)

end

/-! ### The rules of JMP, JEQ and JNE -/

/-- Settles O34: JMP leaves the state with pc the register, which is the state itself if pc is that already. -/
theorem jmpJumps : Obligations.JmpJumps := by
  refine ⟨⟨rfl, rfl, rfl, rfl⟩, fun a s h => ?_, fun _ => engineLeavesPc rfl, faultsOnOperandA (by decide),
    fun s op a h hadm hrun hself => ?_⟩
  · exact ⟨s.setPc (targetOf (s.reg ⟨a.toNat, h⟩)), exec_jmp_next_iff.2 ⟨h, rfl⟩, rfl, fun _ _ => rfl, fun _ _ => rfl,
      rfl, rfl, rfl, rfl, rfl⟩
  · have hexec : exec (.jmp a) s = .next s := exec_jmp_next_iff.2 ⟨h, State.setPc_eq_self hself⟩
    exact ⟨engineLeavesPc rfl s op s hadm hrun hexec,
      runFor_of_cycle_eq_self (hrun.cycle_eq_of_setsPc hadm rfl hexec)⟩

/-- Settles O35: JEQ leaves the state of a jump on E, and only CMP sets E. -/
theorem jeqJumpsOnEqual : Obligations.JeqJumpsOnEqual := by
  refine ⟨⟨rfl, rfl, rfl, rfl⟩, fun a s h => ?_, fun _ => engineLeavesPc rfl, faultsOnOperandA (by decide),
    equalClearBeforeCmp⟩
  exact ⟨jumpIf s.fl.e ⟨a.toNat, h⟩ s, exec_jeq_next_iff.2 ⟨h, rfl⟩, jumpIf_pc_of_taken, jumpIf_pc_of_not_taken,
    jumpIf_frame _ _ s⟩

/-- Settles O36: JNE leaves the state of a jump on E being 0, which it is before any CMP and after a CMP of unequal
registers. -/
theorem jneJumpsOnNotEqual : Obligations.JneJumpsOnNotEqual := by
  refine ⟨⟨rfl, rfl, rfl, rfl⟩, fun a s h => ?_, fun _ => engineLeavesPc rfl, faultsOnOperandA (by decide),
    equalClearBeforeCmp, fun s op op' a b c ha hb hc hadm hcmp hjne hne => ?_⟩
  · exact ⟨jumpIf (!s.fl.e) ⟨a.toNat, h⟩ s, exec_jne_next_iff.2 ⟨h, rfl⟩,
      fun he => jumpIf_pc_of_taken (congrArg not he), fun he => jumpIf_pc_of_not_taken (congrArg not he),
      jumpIf_frame _ _ s⟩
  · have hcycle := hcmp.cycle_cmp ha hb
    have hcfg : (cycle s).cfg = s.cfg := by rw [hcycle, advance_cfg, State.setFl_cfg]
    have hreg : (cycle s).reg ⟨c.toNat, hc⟩ = s.reg ⟨c.toNat, hc⟩ := by rw [hcycle, advance_reg, State.setFl_reg]
    have he : (cycle s).fl.e = false := by rw [hcycle, advance_fl, State.setFl_fl, compareFlags_e_of_ne hne]
    calc (runFor 2 s).pc = (cycle (cycle s)).pc := by rw [runFor_succ hcmp.1, runFor_succ hjne.1, runFor]
      _ = ((cycle s).reg ⟨c.toNat, hc⟩).toNat := hjne.cycle_jne_pc (hcfg ▸ hadm) hc he
      _ = (s.reg ⟨c.toNat, hc⟩).toNat := by rw [hreg]

end Sys2Proof.Machine
end

section
/-! SUPPORT. The fault of a cycle as one value: what each step of the cycle contributes to the order of R105; and what a
fault leaves (60_exceptions.md R100, R104, R105). -/

namespace Sys2Proof

/-- The register-field check in the order of R105: `operand_a` in every format with a register field, then `operand_b`
in F2RR. -/
theorem illegalOperand_eq_ite (f : Format) (a b : Byte) :
    illegalOperand f a b =
      if f ≠ .f0 ∧ regCount ≤ a.toNat then some a
      else if f = .f2rr ∧ regCount ≤ b.toNat then some b
      else none := by
  split_ifs with ha hb
  · exact illegalOperand_operandA ha.1 ha.2 b
  · obtain ⟨rfl, hb⟩ := hb
    exact illegalOperand_operandB (Nat.lt_of_not_le fun h => ha ⟨nofun, h⟩) hb
  · refine illegalOperand_eq_none ?_ fun hf => Nat.lt_of_not_le fun h => hb ⟨hf, h⟩
    exact or_iff_not_imp_left.2 fun hf => Nat.lt_of_not_le fun h => ha ⟨hf, h⟩

end Sys2Proof

namespace Sys2Proof.Machine

theorem withRegs_of_lt {a b : Byte} (ha : a.toNat < regCount) (hb : b.toNat < regCount)
    (k : RegIdx → RegIdx → Result) : withRegs a b k = k ⟨a.toNat, ha⟩ ⟨b.toNat, hb⟩ := by
  rw [withRegs, withReg_of_lt ha, withReg_of_lt hb]

/-! ### The fault of an outcome -/

theorem faultOf_eq_some_iff {o : Result} {r : Fault} : faultOf o = some r ↔ o = .fault r := by
  cases o <;> simp [faultOf]

theorem faultOf_runInstr (op : Byte) (i : Instr) (s : State) : faultOf (runInstr op i s) = faultOf (exec i s) := by
  unfold runInstr
  cases exec i s <;> rfl

/-! ### The stack access, last in the order of R105 -/

/-- The fault of an access to one cell: the cell does not exist (R38, R39). -/
def cellFault (s : State) (addr : Nat) : Option Fault :=
  if s.cfg.memSize ≤ addr then some (.memOutOfBounds addr) else none

/-- The fault of the stack access that an instruction of mnemonic `k` makes from `s` (R101). -/
def stackFault (s : State) : Mnemonic → Option Fault
  | .psh | .cal => cellFault s s.pushAddr
  | .pop | .ret => cellFault s s.popAddr
  | .hlt | .ldi | .prn | .add | .mul | .cmp | .jmp | .jeq | .jne => none

section
variable {s : State}

/-- The stack access as R105's last item states it, by the value of SP. -/
theorem stackFault_eq_ite (k : Mnemonic) :
    stackFault s k =
      if k ∈ [Mnemonic.psh, Mnemonic.cal] ∧ s.cfg.memSize ≤ (s.sp - 1).toNat then
        some (.memOutOfBounds (s.sp - 1).toNat)
      else if k ∈ [Mnemonic.pop, Mnemonic.ret] ∧ s.cfg.memSize ≤ s.sp.toNat then some (.memOutOfBounds s.sp.toNat)
      else none := by
  cases k with
  | psh | cal => simp [stackFault, cellFault, s.pushAddr_eq]
  | pop | ret =>
    change cellFault s s.sp.toNat = _
    simp [cellFault]
  | hlt | ldi | prn | add | mul | cmp | jmp | jeq | jne => simp [stackFault]

/-- An access to the cell at `addr`, with nothing after it that faults, faults where that cell does not exist. -/
theorem faultOf_orFault_access {α : Type} {x : Except Fault α} {addr : Nat}
    (hx : ∀ r, x = .error r ↔ s.cfg.memSize ≤ addr ∧ .memOutOfBounds addr = r) (g : α → State) :
    faultOf (orFault x fun v => .next (g v)) = cellFault s addr := by
  cases x with
  | ok v =>
    have hroom : ¬s.cfg.memSize ≤ addr := fun hle => nomatch (hx _).2 ⟨hle, rfl⟩
    exact (if_neg hroom).symm
  | error r =>
    obtain ⟨hle, rfl⟩ := (hx r).1 rfl
    exact (if_pos hle).symm

/-- Where the register fields have passed their check, the stack access is all a handler can fault at. -/
theorem faultOf_exec {i : Instr} (h : i.wellFormed = true) : faultOf (exec i s) = stackFault s i.mnemonic := by
  have hreg : ∀ x ∈ i.regOperands, x.toNat < regCount := by simpa [Instr.wellFormed] using h
  unfold exec
  cases i with
  | hlt => rfl
  | ldi a _ | prn a | jmp a | jeq a | jne a =>
    exact congrArg faultOf (withReg_of_lt (hreg _ (.head _)) _)
  | psh a | cal a =>
    exact (congrArg faultOf (withReg_of_lt (hreg _ (.head _)) _)).trans
      (faultOf_orFault_access (fun _ => push_error_iff) _)
  | pop a =>
    exact (congrArg faultOf (withReg_of_lt (hreg _ (.head _)) _)).trans
      (faultOf_orFault_access (fun _ => popRead_error_iff) _)
  | ret => exact faultOf_orFault_access (fun _ => popRead_error_iff) _
  | add a b | mul a b | cmp a b =>
    exact congrArg faultOf (withRegs_of_lt (hreg _ (.head _)) (hreg _ (.tail _ (.head _))) _)

/-! ### The items after the fetch, in the order of R105 -/

theorem firstFaultAfterFetch_of_lookup_none {op : Byte} (hk : s.cfg.opcodes.lookup op = none) (a b : Byte) :
    firstFaultAfterFetch s op a b = faultOf (unknownOpcodeAction op s) := by
  unfold firstFaultAfterFetch unknownOpcodeAction
  rw [hk]
  cases s.cfg.policy <;> rfl

/-- A known opcode: the register fields come before the stack access. -/
theorem firstFaultAfterFetch_of_lookup {op : Byte} {k : Mnemonic} (hk : s.cfg.opcodes.lookup op = some k) (a b : Byte) :
    firstFaultAfterFetch s op a b =
      ((illegalOperand k.format a b).map Fault.illegalRegister).or (stackFault s k) := by
  simp only [firstFaultAfterFetch, hk, ← stackFault_eq_ite, illegalOperand_eq_ite]
  split_ifs <;> rfl

/-- A cycle that fetches goes on to the lookup, the register-field check and the handler. -/
theorem faultOf_step_of_fetch_ok {f : Fetched} (hs : s.status = .running) (hf : fetch s = .ok f) :
    faultOf (step s) = firstFaultAfterFetch s f.opcode f.operandA f.operandB := by
  cases hk : s.cfg.opcodes.lookup f.opcode with
  | none => rw [step_of_lookup_none hs hf hk, firstFaultAfterFetch_of_lookup_none hk]
  | some k =>
    rw [firstFaultAfterFetch_of_lookup hk]
    cases hx : illegalOperand k.format f.operandA f.operandB with
    | some x =>
      rw [step_of_illegalOperand hs hf hk hx]
      rfl
    | none =>
      have hrun := runsNext_of_legal hs hf hk hx
      rw [hrun.step_eq, faultOf_runInstr, faultOf_exec hrun.wellFormed, buildInstr_mnemonic]
      rfl

/-- The cycle of a Running machine raises the first fault in the order of R105, or none: the reads come first. -/
theorem faultOf_step (hs : s.status = .running) : faultOf (step s) = firstFault s := by
  obtain ⟨-, hfault0, hfault1, hfault2⟩ := fetchReadsThreeBytes
  unfold firstFault
  split_ifs with h0 h1 h2
  · exact faultOf_eq_some_iff.2 (hfault0 s hs h0)
  · exact faultOf_eq_some_iff.2 (hfault1 s hs (Nat.lt_of_not_le h0) h1)
  · exact faultOf_eq_some_iff.2 (hfault2 s hs (Nat.lt_of_not_le h1) h2)
  · exact faultOf_step_of_fetch_ok hs (fetch_ok_iff.2 ⟨Nat.lt_of_not_le h2, rfl⟩)

end

/-- Settles O12: the fault of a Running machine's step, as one value, is the first fault in the order of R105. -/
theorem firstFaultWins : Obligations.FirstFaultWins := by
  intro s hs r
  rw [← faultOf_step hs, faultOf_eq_some_iff]

/-! ### What a fault leaves (R100, R104) -/

theorem cycle_of_step_fault {s : State} {r : Fault} (h : step s = .fault r) : cycle s = s.enterFault r := by
  rw [cycle, h, settle]

/-- Settles O13: a cycle that faults only enters the fault, and a Faulted machine has no cycle. -/
theorem faultsArePreciseAndTerminal : Obligations.FaultsArePreciseAndTerminal := by
  intro s r h
  have hended : (s.enterFault r).status ≠ .running := nofun
  obtain ⟨q, hq⟩ := step_not_running hended
  rw [cycle_of_step_fault h, hq]
  exact ⟨rfl, rfl, rfl, rfl, rfl, rfl, rfl, rfl, runFor_of_not_running hended, nofun, nofun⟩

end Sys2Proof.Machine
end

section
/-! SUPPORT. What a load puts in memory, when it is a load error, and the loaded machine before its first cycle
(70_reset_and_hazards.md R116, R118, R120). -/

namespace Sys2Proof.Machine

/-! ### What memory reads after consecutive writes -/

/-- Consecutive writes leave the cells above the last one alone. -/
theorem Memory.read_writeFrom_above (m : Memory) {a b : Nat} (bytes : List Byte) (h : a + bytes.length ≤ b) :
    (m.writeFrom a bytes).read b = m.read b := by
  induction bytes generalizing m a with
  | nil => rfl
  | cons v rest ih =>
    rw [List.length_cons] at h
    rw [Memory.writeFrom, ih _ (by omega), Memory.read_write_other m v (by omega)]

/-- The cell `k` places after the first one written holds byte `k`. -/
theorem Memory.read_writeFrom_add (m : Memory) (a : Nat) (bytes : List Byte) (hm : m.wf) {k : Nat}
    (h : k < bytes.length) : (m.writeFrom a bytes).read (a + k) = bytes[k] := by
  induction bytes generalizing m a k with
  | nil => exact absurd h (Nat.not_lt_zero k)
  | cons v rest ih =>
    rw [Memory.writeFrom]
    cases k with
    | zero =>
      calc ((m.write a v).writeFrom (a + 1) rest).read a
        _ = (m.write a v).read a := Memory.read_writeFrom_below _ rest (Nat.lt_succ_self a)
        _ = v := Memory.read_write_same m a v hm
    | succ k =>
      rw [List.getElem_cons_succ, Nat.add_comm k 1, ← Nat.add_assoc]
      exact ih _ (a + 1) (Memory.write_wf m a v hm) (Nat.lt_of_succ_lt_succ h)

/-! ### When an image fits -/

theorem firstTooLarge_eq_none_iff (i : Nat) (image : List Nat) :
    firstTooLarge i image = none ↔ ∀ v ∈ image, v < 256 := by
  induction image generalizing i with
  | nil => simp [firstTooLarge]
  | cons v rest ih =>
    rw [firstTooLarge, List.forall_mem_cons]
    split_ifs with hv <;> simp [hv, ih]

/-- An image has no problem exactly when it is short enough and holds bytes only (R118). -/
theorem imageProblem_eq_none_iff (size : Nat) (image : List Nat) :
    imageProblem size image = none ↔ image.length ≤ size ∧ ∀ v ∈ image, v < 256 := by
  rw [imageProblem, ← firstTooLarge_eq_none_iff 0 image]
  split_ifs with hlen
  · simp [hlen]
  · cases firstTooLarge 0 image <;> simp [Nat.le_of_not_lt hlen]

section

variable {image : List Nat} {s : State}

/-- An image that fits is written to memory from address 0, and nothing else changes (R120). -/
theorem loadImage_of_fits (hlen : image.length ≤ s.cfg.memSize) (hval : ∀ v ∈ image, v < 256) :
    loadImage image s = .next (s.setMem (s.mem.writeFrom 0 (image.map (BitVec.ofNat 8)))) := by
  rw [loadImage, (imageProblem_eq_none_iff _ image).2 ⟨hlen, hval⟩]

theorem loadImage_loadError_iff (p : LoadProblem) :
    loadImage image s = .fault (.loadError p) ↔ imageProblem s.cfg.memSize image = some p := by
  rw [loadImage]
  cases imageProblem s.cfg.memSize image <;> simp

end

/-- Settles O49: a load fails exactly when its image has a problem, so it fails unless the image fits. -/
theorem badImageIsLoadError : Obligations.BadImageIsLoadError := by
  intro image s
  calc (∃ p, loadImage image s = .fault (.loadError p))
    _ ↔ ¬imageProblem s.cfg.memSize image = none := by
      simp only [loadImage_loadError_iff, ← Option.ne_none_iff_exists', ne_eq]
    _ ↔ ¬(image.length ≤ s.cfg.memSize ∧ ∀ v ∈ image, v < 256) := by rw [imageProblem_eq_none_iff]
    _ ↔ s.cfg.memSize < image.length ∨ ∃ v ∈ image, 255 < v := by
      simp only [not_and_or, not_le, not_forall, not_lt, exists_prop]
      rfl

/-! ### The loaded machine -/

/-- In zeroed memory an image that fits stands from address 0, each cell holding the value itself (R120). -/
theorem toNat_read_writeFrom_image {image : List Nat} (hval : ∀ v ∈ image, v < 256) {k : Nat} (h : k < image.length) :
    ((Memory.writeFrom [] 0 (image.map (BitVec.ofNat 8))).read k).toNat = image[k] := by
  have hread := Memory.read_writeFrom_add [] 0 (image.map (BitVec.ofNat 8)) reset_mem_wf (by rwa [List.length_map])
  rw [Nat.zero_add, List.getElem_map] at hread
  rw [hread, BitVec.toNat_ofNat, Nat.mod_eq_of_lt (hval _ (List.getElem_mem h))]

/-- Settles O48: the load changes only the memory of the constructed machine, which was all 0. -/
theorem loadedMachineBeforeFirstCycle : Obligations.LoadedMachineBeforeFirstCycle := by
  refine ⟨fun c image hlen hval => ?_, rfl, rfl, rfl⟩
  refine ⟨_, loadImage_of_fits hlen hval, State.construct_reg c, rfl, rfl, rfl, rfl, rfl, rfl, ?image, ?rest⟩
  case image => exact fun k => toNat_read_writeFrom_image hval
  case rest => exact fun k h => Memory.read_writeFrom_above [] _ (by simpa using h)

end Sys2Proof.Machine
end


section
/-! SUPPORT. The decoder and the encoder are inverse to each other on well-formed instructions (30_encoding.md R54, R60
to R64). -/

namespace Sys2Proof

/-! ### What decodes -/

theorem Instr.length_operandBytes (i : Instr) : i.operandBytes.length = i.mnemonic.operandCount := by cases i <;> rfl

theorem Instr.regOperands_lt {i : Instr} (h : i.wellFormed = true) : ∀ x ∈ i.regOperands, x.toNat < regCount := by
  simpa [Instr.wellFormed] using h

/-- The register-field check passes exactly the operands of which a well-formed instruction is built (R73). -/
theorem illegalOperand_eq_none_iff {k : Mnemonic} {a b : Byte} :
    illegalOperand k.format a b = none ↔ (buildInstr k a b).wellFormed = true := by
  refine ⟨Machine.buildInstr_wellFormed, fun h => ?_⟩
  have hreg : ∀ x ∈ (buildInstr k a b).regOperands, x.toNat < regCount := Instr.regOperands_lt h
  cases k with
  | hlt | ret => rfl
  | ldi | prn | psh | pop | cal | jmp | jeq | jne => exact illegalOperand_eq_none (.inr (hreg a (.head _))) nofun
  | add | mul | cmp =>
    exact illegalOperand_eq_none (.inr (hreg a (.head _))) fun _ => hreg b (.tail _ (.head _))

theorem decodeInstr_ok_iff {m : OpcodeMap} {op a b : Byte} {i : Instr} :
    decodeInstr m op a b = .ok i ↔ ∃ k, m.lookup op = some k ∧ i = buildInstr k a b ∧ i.wellFormed = true := by
  constructor
  · intro h
    obtain ⟨k, hk, -, hlegal, rfl⟩ := Machine.decodeInstr_ok h
    exact ⟨k, hk, rfl, illegalOperand_eq_none_iff.1 hlegal⟩
  · rintro ⟨k, hk, rfl, hwf⟩
    exact decodeInstr_of_legal hk (illegalOperand_eq_none_iff.2 hwf)

/-- A byte sequence with a known opcode begins with an instruction exactly when its operand bytes are there and the
opcode decodes with them. -/
theorem decode_cons_ok_iff {m : OpcodeMap} {op : Byte} {bytes rest : List Byte} {k : Mnemonic} {i : Instr}
    (hk : m.lookup op = some k) :
    decode m (op :: bytes) = .ok (i, rest) ↔
      k.operandCount ≤ bytes.length ∧ decodeInstr m op (bytes.getD 0 0) (bytes.getD 1 0) = .ok i ∧
        bytes.drop k.operandCount = rest := by
  simp only [decode, hk]
  split_ifs with hlen
  · simp [Nat.not_le_of_lt hlen]
  · cases decodeInstr m op (bytes.getD 0 0) (bytes.getD 1 0) <;> simp [Nat.le_of_not_lt hlen]

theorem decode_cons_of_lookup_none {m : OpcodeMap} {op : Byte} (h : m.lookup op = none) (bytes : List Byte) :
    decode m (op :: bytes) = .error (.rejected (.unknownOpcode op)) := by
  simp only [decode, h]

/-! ### Both directions -/

/-- The operand bytes build the instruction again, whatever follows them. -/
theorem buildInstr_operandBytes (i : Instr) (rest : List Byte) :
    buildInstr i.mnemonic ((i.operandBytes ++ rest).getD 0 0) ((i.operandBytes ++ rest).getD 1 0) = i := by
  cases i <;> rfl

/-- The operand bytes of the instruction built from a byte sequence are the first bytes of the sequence. -/
theorem operandBytes_buildInstr {k : Mnemonic} {bytes : List Byte} (h : k.operandCount ≤ bytes.length) :
    (buildInstr k (bytes.getD 0 0) (bytes.getD 1 0)).operandBytes = bytes.take k.operandCount := by
  cases k with
  | hlt | ret => rfl
  | prn | psh | pop | cal | jmp | jeq | jne =>
    obtain _ | ⟨a, bytes⟩ := bytes
    · cases h
    · rfl
  | ldi | add | mul | cmp =>
    obtain _ | ⟨a, _ | ⟨b, bytes⟩⟩ := bytes
    · cases h
    · exact absurd h (Nat.lt_irrefl 1)
    · rfl

/-- Settles O1: the admissible map looks the opcode up as its mnemonic, and the operand bytes build the instruction. -/
theorem decodeOfEncode : Obligations.DecodeOfEncode := by
  intro m i rest hadm hwf
  have hk : m.lookup (m.code i.mnemonic) = some i.mnemonic := hadm.lookup_eq_some_iff.2 rfl
  refine (decode_cons_ok_iff hk).2 ⟨?_, decodeInstr_ok_iff.2 ⟨_, hk, (buildInstr_operandBytes i rest).symm, hwf⟩, ?_⟩
  · simp [Instr.length_operandBytes]
  · exact List.drop_left' i.length_operandBytes

/-- Settles O2: the bytes split into the opcode, the operand bytes and the rest. -/
theorem encodeOfDecode : Obligations.EncodeOfDecode := by
  intro m bytes rest i h
  cases bytes with
  | nil => cases h
  | cons op bytes =>
    cases hk : m.lookup op with
    | none =>
      rw [decode_cons_of_lookup_none hk] at h
      cases h
    | some k =>
      obtain ⟨hlen, hd, rfl⟩ := (decode_cons_ok_iff hk).1 h
      obtain ⟨_, hk', rfl, hwf⟩ := decodeInstr_ok_iff.1 hd
      obtain rfl := Option.some.inj (hk.symm.trans hk')
      refine ⟨hwf, ?_⟩
      rw [encode, Machine.buildInstr_mnemonic, OpcodeMap.code_of_lookup hk, operandBytes_buildInstr hlen,
        List.cons_append, List.take_append_drop]

/-- Settles O3: the decoder is evaluated on each of the five words. -/
theorem sampleWordsDecode : Obligations.SampleWordsDecode := ⟨rfl, rfl, rfl, rfl, rfl⟩

end Sys2Proof
end

section
/-! SUPPORT. What every step keeps: the parameters, the canonical memory, the exclusive flags and the range of pc; and
who writes memory and the registers (10_state.md R18 to R26, 20_memory.md R37, 70_reset_and_hazards.md R127). -/

namespace Sys2Proof.Machine

/-! ### What a handler does to memory and to a register other than SP -/

/-- PSH and CAL write the cell a push writes; no other handler touches memory (R37). -/
theorem exec_mem_cases {i : Instr} {s t : State} (h : exec i s = .next t) :
    t.mem = s.mem ∨ (∃ a, i = .psh a ∨ i = .cal a) ∧ s.pushAddr < s.cfg.memSize ∧
      ∃ v, t.mem = s.mem.write s.pushAddr v := by
  cases i with
  | psh a =>
    obtain ⟨_, hroom, rfl⟩ := exec_psh_next_iff.1 h
    exact .inr ⟨⟨a, .inl rfl⟩, hroom, _, rfl⟩
  | cal a =>
    obtain ⟨_, hroom, rfl⟩ := exec_cal_next_iff.1 h
    exact .inr ⟨⟨a, .inr rfl⟩, hroom, _, rfl⟩
  | hlt => obtain rfl := exec_hlt_next_iff.1 h; exact .inl rfl
  | ldi a imm => obtain ⟨_, rfl⟩ := exec_ldi_next_iff.1 h; exact .inl rfl
  | prn a => obtain ⟨_, rfl⟩ := exec_prn_next_iff.1 h; exact .inl rfl
  | pop a => obtain ⟨_, _, rfl⟩ := exec_pop_next_iff.1 h; exact .inl rfl
  | ret => obtain ⟨_, rfl⟩ := exec_ret_next_iff.1 h; exact .inl rfl
  | add a b => obtain ⟨_, _, rfl⟩ := exec_add_next_iff.1 h; exact .inl rfl
  | mul a b => obtain ⟨_, _, rfl⟩ := exec_mul_next_iff.1 h; exact .inl rfl
  | cmp a b => obtain ⟨_, _, rfl⟩ := exec_cmp_next_iff.1 h; exact .inl rfl
  | jmp a => obtain ⟨_, rfl⟩ := exec_jmp_next_iff.1 h; exact .inl rfl
  | jeq a => obtain ⟨_, rfl⟩ := exec_jeq_next_iff.1 h; exact .inl (jumpIf_mem ..)
  | jne a => obtain ⟨_, rfl⟩ := exec_jne_next_iff.1 h; exact .inl (jumpIf_mem ..)

theorem State.setReg_reg_ne {s : State} {d r : RegIdx} {v : Byte} (h : (s.setReg d v).reg r ≠ s.reg r) : d = r := by
  by_contra hne
  exact h (s.setReg_reg_other v (Ne.symm hne))

/-- A handler that changes a register other than SP is that of LDI, POP, ADD or MUL with that register as `operand_a`
(R18, R20). -/
theorem exec_reg_ne {i : Instr} {s t : State} {r : RegIdx} (h : exec i s = .next t) (hr : r ≠ spIndex)
    (hne : t.reg r ≠ s.reg r) :
    ∃ a b, a.toNat = r.val ∧ (i = .ldi a b ∨ i = .pop a ∨ i = .add a b ∨ i = .mul a b) := by
  cases i with
  | hlt => obtain rfl := exec_hlt_next_iff.1 h; exact absurd rfl hne
  | ldi a imm =>
    obtain ⟨_, rfl⟩ := exec_ldi_next_iff.1 h
    exact ⟨a, imm, congrArg Fin.val (State.setReg_reg_ne hne), .inl rfl⟩
  | prn a => obtain ⟨_, rfl⟩ := exec_prn_next_iff.1 h; exact absurd rfl hne
  | psh a => obtain ⟨_, _, rfl⟩ := exec_psh_next_iff.1 h; exact absurd (State.setReg_reg_ne hne).symm hr
  | pop a =>
    obtain ⟨_, _, rfl⟩ := exec_pop_next_iff.1 h
    rw [State.incSp_reg_of_ne hr] at hne
    exact ⟨a, 0, congrArg Fin.val (State.setReg_reg_ne hne), .inr (.inl rfl)⟩
  | cal a => obtain ⟨_, _, rfl⟩ := exec_cal_next_iff.1 h; exact absurd (State.setReg_reg_ne hne).symm hr
  | ret => obtain ⟨_, rfl⟩ := exec_ret_next_iff.1 h; exact absurd (State.incSp_reg_of_ne hr) hne
  | add a b =>
    obtain ⟨_, _, rfl⟩ := exec_add_next_iff.1 h
    exact ⟨a, b, congrArg Fin.val (State.setReg_reg_ne hne), .inr (.inr (.inl rfl))⟩
  | mul a b =>
    obtain ⟨_, _, rfl⟩ := exec_mul_next_iff.1 h
    exact ⟨a, b, congrArg Fin.val (State.setReg_reg_ne hne), .inr (.inr (.inr rfl))⟩
  | cmp a b => obtain ⟨_, _, rfl⟩ := exec_cmp_next_iff.1 h; exact absurd rfl hne
  | jmp a => obtain ⟨_, rfl⟩ := exec_jmp_next_iff.1 h; exact absurd rfl hne
  | jeq a => obtain ⟨_, rfl⟩ := exec_jeq_next_iff.1 h; exact absurd (jumpIf_reg ..) hne
  | jne a => obtain ⟨_, rfl⟩ := exec_jne_next_iff.1 h; exact absurd (jumpIf_reg ..) hne

/-- Settles O40: the cycle that changes a byte ran a handler that writes memory, which writes the cell below SP. -/
theorem onlyPushesWriteMemory : Obligations.OnlyPushesWriteMemory := by
  intro s addr hne
  obtain ⟨op, i, t, hrun, ht, hc⟩ := cycle_change (view := fun s => s.mem.read addr)
    (fun op s => congrArg (·.read addr) (advance_mem op s)) (fun _ _ => rfl) hne
  rw [hc] at hne
  obtain hmem | ⟨⟨a, hi⟩, -, v, hmem⟩ := exec_mem_cases ht
  · exact absurd (congrArg (·.read addr) hmem) hne
  · refine ⟨?_, op, a, ?_⟩
    · by_contra haddr
      rw [← s.pushAddr_eq] at haddr
      exact hne (hmem ▸ Memory.read_write_other s.mem v haddr)
    · obtain rfl | rfl := hi
      · exact .inl hrun
      · exact .inr hrun

/-- Settles O41: the cycle that changes the register ran a handler that does. -/
theorem onlyNamedRegistersChange : Obligations.OnlyNamedRegistersChange := by
  intro s r hr hne
  obtain ⟨op, i, t, hrun, ht, hc⟩ := cycle_change (view := fun s => s.reg r) (fun op s => advance_reg op s r)
    (fun s q => s.enterFault_reg q r) hne
  obtain ⟨a, b, ha, hi⟩ := exec_reg_ne ht hr (hc ▸ hne)
  refine ⟨op, a, b, ha, ?_⟩
  obtain rfl | rfl | rfl | rfl := hi
  · exact .inl hrun
  · exact .inr (.inl hrun)
  · exact .inr (.inr (.inl hrun))
  · exact .inr (.inr (.inr hrun))

/-! ### What a step keeps -/

/-- What holds before a step, after every handler, and after an advance wherever it holds before, holds after the
step. -/
theorem step_preserves {P : State → Prop} {s t : State} (hadvance : ∀ op u, P u → P (advance op u))
    (hexec : ∀ i u, exec i s = .next u → P u) (hs : P s) (h : step s = .next t) : P t := by
  obtain ⟨-, f, -, ⟨-, -, rfl⟩ | ⟨i, u, -, hu, rfl⟩⟩ := step_next_cases h
  · exact hadvance _ _ hs
  · exact hadvance _ _ (hexec i u hu)

section
variable {s t : State}

theorem step_cfg (h : step s = .next t) : t.cfg = s.cfg :=
  step_preserves (P := fun u => u.cfg = s.cfg) (fun op u hu => (advance_cfg op u).trans hu)
    (fun _ _ hu => (exec_frame hu).cfg) rfl h

theorem cycle_cfg (s : State) : (cycle s).cfg = s.cfg := by
  by_contra hne
  obtain ⟨_, i, t, -, ht, hc⟩ := cycle_change advance_cfg State.enterFault_cfg hne
  exact hne (hc.trans (exec_frame ht).cfg)

/-- A step keeps memory canonical, and lists only cells that exist (R36). -/
theorem step_mem_canonical (hwf : s.mem.wf) (hin : s.mem.within s.cfg.memSize) (h : step s = .next t) :
    t.mem.wf ∧ t.mem.within s.cfg.memSize := by
  refine step_preserves (P := fun u => u.mem.wf ∧ u.mem.within s.cfg.memSize) (fun op u hu => ?_) (fun i u hu => ?_)
    ⟨hwf, hin⟩ h
  · rwa [advance_mem]
  · obtain hmem | ⟨-, hroom, v, hmem⟩ := exec_mem_cases hu
    · rw [hmem]
      exact ⟨hwf, hin⟩
    · rw [hmem]
      exact ⟨Memory.write_wf _ _ v hwf, Memory.write_within _ v hin hroom⟩

/-- A handler leaves FL alone or sets exactly one flag (R26, R93). -/
theorem exec_fl_exclusive {i : Instr} (hs : s.fl.exclusive) (h : exec i s = .next t) : t.fl.exclusive := by
  by_cases hi : ∀ a b, i ≠ .cmp a b
  · rwa [(exec_frame h).fl hi]
  · push Not at hi
    obtain ⟨a, b, rfl⟩ := hi
    obtain ⟨_, _, rfl⟩ := exec_cmp_next_iff.1 h
    exact compareFlags_exclusive _ _

theorem step_fl_exclusive (hs : s.fl.exclusive) (h : step s = .next t) : t.fl.exclusive :=
  step_preserves (P := fun u => u.fl.exclusive) (fun op u hu => by rwa [advance_fl])
    (fun _ _ => exec_fl_exclusive hs) hs h

/-! ### The range of pc (R22, R70, R95) -/

theorem targetOf_le (v : Byte) : targetOf v ≤ 255 := Nat.le_of_lt_succ v.isLt

theorem lengthField_le (op : Byte) : lengthField op ≤ 4 := Nat.succ_le_of_lt (Nat.mod_lt _ (by decide))

theorem operandCount_le (k : Mnemonic) : k.operandCount ≤ 2 := by cases k <;> decide

theorem jumpIf_pc_le (c : Bool) (r : RegIdx) (s : State) : (jumpIf c r s).pc ≤ max 255 (s.pc + 2) := by
  rw [jumpIf_pc]
  split
  · exact le_max_of_le_left (targetOf_le _)
  · exact le_max_right ..

/-- An instruction that sets pc itself sets it to a target, which is a byte, or to the next address after its own. -/
theorem exec_pc_le {i : Instr} (hi : i.mnemonic.setsPc = true) (h : exec i s = .next t) :
    t.pc ≤ max 255 (s.pc + 2) := by
  cases i with
  | hlt | ldi | prn | psh | pop | add | mul | cmp => cases hi
  | cal a => obtain ⟨_, _, rfl⟩ := exec_cal_next_iff.1 h; exact le_max_of_le_left (targetOf_le _)
  | ret => obtain ⟨_, rfl⟩ := exec_ret_next_iff.1 h; exact le_max_of_le_left (targetOf_le _)
  | jmp a => obtain ⟨_, rfl⟩ := exec_jmp_next_iff.1 h; exact le_max_of_le_left (targetOf_le _)
  | jeq a => obtain ⟨_, rfl⟩ := exec_jeq_next_iff.1 h; exact jumpIf_pc_le ..
  | jne a => obtain ⟨_, rfl⟩ := exec_jne_next_iff.1 h; exact jumpIf_pc_le ..

theorem advance_pc_le (op : Byte) (s : State) : (advance op s).pc ≤ s.pc + 4 := by
  have hlen := lengthField_le op
  rw [advance_pc]
  split <;> omega

theorem max_le_pcBound (s : State) : max 255 s.cfg.memSize ≤ s.pcBound := by
  unfold State.pcBound
  cases s.cfg.policy with
  | fault => exact le_rfl
  | skip => exact max_le_max_left 255 (Nat.le_succ _)

theorem RunsNext.step_pc_le {op : Byte} {i : Instr} (hrun : RunsNext s op i) (hadm : s.cfg.Admissible)
    (h : step s = .next t) : t.pc ≤ max 255 s.cfg.memSize := by
  obtain ⟨-, -, hroom⟩ := hrun.opcode
  cases hi : i.mnemonic.setsPc with
  | true =>
    obtain ⟨u, hu, hpc⟩ := hrun.step_pc_of_setsPc hadm hi h
    have hle := exec_pc_le hi hu
    omega
  | false =>
    have hpc := hrun.step_pc_of_not_setsPc hadm hi h
    have hlen : i.length ≤ 3 := Nat.succ_le_succ (operandCount_le _)
    omega

/-- Every step leaves pc in its range, because a cycle that does not fault has fetched three cells that exist. -/
theorem step_pc_le_pcBound (hadm : s.cfg.Admissible) (h : step s = .next t) : t.pc ≤ s.pcBound := by
  obtain ⟨hs, f, hf, ⟨-, hpolicy, rfl⟩ | ⟨i, u, hd, -, -⟩⟩ := step_next_cases h
  · obtain ⟨hroom, -⟩ := fetch_ok_iff.1 hf
    have hle := advance_pc_le f.opcode s
    simp only [State.pcBound, hpolicy]
    omega
  · have hrun : RunsNext s f.opcode i := ⟨hs, f, hf, rfl, hd⟩
    exact (hrun.step_pc_le hadm h).trans (max_le_pcBound s)

end

/-- Settles O45: a step keeps the parameters, and a run does by induction on the number of cycles. -/
theorem parametersNeverChange : Obligations.ParametersNeverChange := by
  refine ⟨fun s t => step_cfg, fun s n => ?_⟩
  induction n generalizing s with
  | zero => rfl
  | succ n ih =>
    by_cases hs : s.status = .running
    · rw [runFor_succ hs, ih, cycle_cfg]
    · rw [runFor_of_not_running hs]

/-- Settles O46: each field of the invariant is kept by every handler and by the advance. -/
theorem stepKeepsInvariant : Obligations.StepKeepsInvariant := by
  rintro s t ⟨hadm, hwf, hin, hfl, -⟩ h
  have hcfg := step_cfg h
  obtain ⟨hwf', hin'⟩ := step_mem_canonical hwf hin h
  have hbound : t.pcBound = s.pcBound := by rw [State.pcBound, State.pcBound, hcfg]
  exact ⟨hcfg ▸ hadm, hwf', hcfg ▸ hin', step_fl_exclusive hfl h, hbound ▸ step_pc_le_pcBound hadm h⟩

/-- Under the policy Fault a step that does not fault ran an instruction. -/
theorem step_runs {s t : State} (hpolicy : s.cfg.policy = .fault) (h : step s = .next t) : ∃ op i, RunsNext s op i := by
  obtain ⟨hs, f, hf, ⟨-, hskip, -⟩ | ⟨i, -, hd, -, -⟩⟩ := step_next_cases h
  · rw [hpolicy] at hskip
    cases hskip
  · exact ⟨f.opcode, i, hs, f, hf, rfl, hd⟩

/-- Settles O43: the instruction that ran moved pc by its length from at most 253, or set it to a byte. -/
theorem pcStaysInRange : Obligations.PcStaysInRange := by
  intro s t hadm hsize hpolicy h
  have hle : t.pc ≤ 256 := by simpa [State.pcBound, hpolicy, hsize] using step_pc_le_pcBound hadm h
  obtain ⟨op, i, hrun⟩ := step_runs hpolicy h
  obtain ⟨hcode, hop, hroom⟩ := hrun.opcode
  obtain ⟨-, hlen, hsets⟩ := encodingShape i _ hadm.2
  rw [hop, ← hcode, hlen, hsets]
  cases hi : i.mnemonic.setsPc with
  | true =>
    obtain ⟨u, hu, hpc⟩ := hrun.step_pc_of_setsPc hadm hi h
    have hset := exec_pc_le hi hu
    have htarget : t.pc ≤ 255 := by omega
    exact ⟨hle, fun htop => by omega, fun _ => htarget⟩
  | false => exact ⟨hle, fun _ => hrun.step_pc_of_not_setsPc hadm hi h, nofun⟩

/-! ### The invariant before the first cycle -/

theorem hardwareConfig_admissible : hardwareConfig.Admissible := ⟨by decide, hardwareOpcodes_admissible⟩

theorem construct_inv {c : Config} (h : c.Admissible) : (State.construct c).Inv :=
  ⟨h, reset_mem_wf, nofun, by simp [State.construct], Nat.zero_le _⟩

theorem loadImage_next_iff {image : List Nat} {s t : State} :
    loadImage image s = .next t ↔
      (image.length ≤ s.cfg.memSize ∧ ∀ v ∈ image, v < 256) ∧
        s.setMem (s.mem.writeFrom 0 (image.map (BitVec.ofNat 8))) = t := by
  rw [← imageProblem_eq_none_iff, loadImage]
  cases imageProblem s.cfg.memSize image <;> simp

theorem loadImage_inv {image : List Nat} {s t : State} (hs : s.Inv) (h : loadImage image s = .next t) : t.Inv := by
  obtain ⟨⟨hlen, -⟩, rfl⟩ := loadImage_next_iff.1 h
  obtain ⟨hadm, hwf, hin, hfl, hpc⟩ := hs
  exact ⟨hadm, Memory.writeFrom_wf _ _ _ hwf, Memory.writeFrom_within _ _ hin (by simpa using hlen), hfl, hpc⟩

/-- Settles O47: construction has empty memory, no flag and pc 0, and a load writes cells that exist. -/
theorem resetMeetsInvariant : Obligations.ResetMeetsInvariant :=
  ⟨construct_inv hardwareConfig_admissible, fun _ => construct_inv, fun _ _ _ => loadImage_inv⟩

end Sys2Proof.Machine
end

section
/-! SUPPORT. The cycle of a Running machine: the placed bytes it fetches, the unknown opcode, the handlers that complete
and those that fault, and the top of memory (40_engine.md R69 to R75, R79; 60_exceptions.md R101). -/

namespace Sys2Proof.Machine

/-! ### The bytes placed at pc -/

section
variable {s : State} (op a b : Byte)

theorem placeAtPc_eq (hroom : s.pc + 2 < s.cfg.memSize) :
    placeAtPc s (op, a, b) = s.setMem (s.mem.writeFrom s.pc [op, a, b]) := by
  have h0 : s.pc < s.cfg.memSize := by omega
  have h1 : s.pc + 1 < s.cfg.memSize := by omega
  simp only [placeAtPc, pokeByte, if_pos h0, if_pos h1, if_pos hroom, Memory.writeFrom]

/-- The next fetch reads the three bytes placed at pc. -/
theorem fetch_placeAtPc (hwf : s.mem.wf) (hroom : s.pc + 2 < s.cfg.memSize) :
    fetch (placeAtPc s (op, a, b)) = .ok { opcode := op, operandA := a, operandB := b } := by
  have hread : ∀ (k : Nat) (h : k < 3), (s.mem.writeFrom s.pc [op, a, b]).read (s.pc + k) = [op, a, b][k] :=
    fun k h => Memory.read_writeFrom_add s.mem s.pc [op, a, b] hwf h
  rw [placeAtPc_eq op a b hroom, fetch_ok_iff]
  refine ⟨hroom, ?_⟩
  simp only [State.setMem_mem, State.setMem_pc]
  rw [hread 1 (by decide), hread 2 (by decide)]
  exact congrArg (Fetched.mk · a b) (hread 0 (by decide)).symm

end

theorem decodeTableWord_eq_some_iff {nbits w : Nat} {i : Instr} :
    decodeTableWord nbits w = some i ↔
      decodeInstr hardwareOpcodes (tableBytes nbits w).1 (tableBytes nbits w).2.1 (tableBytes nbits w).2.2 = .ok i := by
  simp only [decodeTableWord]
  split <;> simp_all

/-- Settles O4: the next fetch reads the word's bytes, which decode to the instruction. -/
theorem placedWordRunsNext : Obligations.PlacedWordRunsNext := by
  intro s nbits w i hs hwf hroom hmap hw
  have hd := decodeTableWord_eq_some_iff.1 hw
  obtain ⟨k, -, hcode, -, rfl⟩ := decodeInstr_ok hd
  rw [buildInstr_mnemonic, hcode]
  have hcfg : (s.withFetchWord nbits w).cfg = s.cfg := rfl
  exact ⟨hs, _, fetch_placeAtPc _ _ _ hwf hroom, rfl, by rwa [hcfg, hmap]⟩

/-! ### A known opcode and an unknown one -/

/-- Settles O5: the cycle is the handler and the advance by the opcode's fields. -/
theorem stepRunsDecodedInstruction : Obligations.StepRunsDecodedInstruction := by
  intro s op i hrun
  refine ⟨fun t ht => ?_, fun r hr => ?_⟩
  · rw [hrun.step_of_exec_next ht, advance_eq_ite]
  · rw [hrun.step_eq, runInstr_fault_iff.2 hr]

/-- Settles O9: the cycle passes the opcode without an advance, so it changes nothing, and is repeated for ever. -/
theorem skippedSetsPcOpcodeHangs : Obligations.SkippedSetsPcOpcodeHangs := by
  intro s f hs hf hskip hunknown hbit
  obtain ⟨hstep, -⟩ := unknownOpcodeFollowsPolicy s f hs hf
  obtain ⟨-, hstep⟩ := hstep hunknown
  have hnext : step s = .next s := by simpa [hbit] using hstep hskip
  exact runFor_of_cycle_eq_self (by rw [cycle, hnext, settle])

/-- No byte of R59 is 0. -/
theorem zero_ne_hardware_code (k : Mnemonic) : 0 ≠ hardwareOpcodes.code k := by cases k <;> decide

/-- Settles O16: 0 is an unknown opcode, with bit 4 clear and length 1. -/
theorem zeroMemoryIsUnknown : Obligations.ZeroMemoryIsUnknown := by
  intro s hs hmap hroom hzero
  obtain ⟨hfetch, -⟩ := fetchReadsThreeBytes
  obtain ⟨f, hf, hop, -⟩ := hfetch s hroom
  obtain ⟨hstep, -⟩ := unknownOpcodeFollowsPolicy s f hs hf
  rw [hop, hzero, hmap] at hstep
  exact hstep zero_ne_hardware_code

/-! ### The handlers -/

/-- Settles O37: a well-formed instruction faults at most at its stack access, and 256 cells hold every byte address. -/
theorem everyHandlerCompletes : Obligations.EveryHandlerCompletes := by
  intro i s hwf hsize
  obtain ⟨hpush, hpop⟩ := stack_in_bounds hsize
  refine (exec_nextOrFault i s).resolve_right fun ⟨r, hr⟩ => ?_
  cases exec_faultsWithin i s r hr with
  | illegalRegister hb h => exact Nat.not_le_of_lt (Instr.regOperands_lt hwf _ hb) h
  | push _ h => exact Nat.not_le_of_lt hpush h
  | pop _ h => exact Nat.not_le_of_lt hpop h

/-- The first register operand that names no register (R73). -/
abbrev firstIllegal (operands : List Byte) : Option Byte := operands.find? fun x => decide (regCount ≤ x.toNat)

section
variable {a b x : Byte}

theorem withReg_of_firstIllegal (h : firstIllegal [a] = some x) (k : RegIdx → Result) :
    withReg a k = .fault (.illegalRegister x) := by
  have hx : regCount ≤ x.toNat := by simpa using List.find?_some h
  obtain rfl := List.mem_singleton.1 (List.mem_of_find?_eq_some h)
  exact withReg_of_not_lt (Nat.not_lt_of_le hx) k

theorem withRegs_of_firstIllegal (h : firstIllegal [a, b] = some x) (k : RegIdx → RegIdx → Result) :
    withRegs a b k = .fault (.illegalRegister x) := by
  by_cases ha : a.toNat < regCount
  · have hb : firstIllegal [b] = some x := by simpa [firstIllegal, Nat.not_le_of_lt ha] using h
    rw [withRegs, withReg_of_lt ha, withReg_of_firstIllegal hb]
  · have hax : a = x := by simpa [firstIllegal, Nat.le_of_not_lt ha] using h
    rw [withRegs, withReg_of_not_lt ha, hax]

end

theorem exec_of_firstIllegal {i : Instr} {x : Byte} (h : firstIllegal i.regOperands = some x) (s : State) :
    exec i s = .fault (.illegalRegister x) := by
  unfold exec
  cases i with
  | hlt | ret => cases h
  | ldi a _ | prn a | psh a | pop a | cal a | jmp a | jeq a | jne a => exact withReg_of_firstIllegal h _
  | add a b | mul a b | cmp a b => exact withRegs_of_firstIllegal h _

/-- Settles O10: the handler's checks come in the order of the register operands. -/
theorem illFormedOperandsFault : Obligations.IllFormedOperandsFault := by
  intro i s hwf
  have hsome : (firstIllegal i.regOperands).isSome := by simpa [Instr.wellFormed] using hwf
  obtain ⟨b, hb⟩ := Option.isSome_iff_exists.1 hsome
  exact ⟨b, hb, exec_of_firstIllegal hb s⟩

/-! ### The top of memory (R101) -/

/-- Settles O44: with 256 cells every stack address exists, so only one of the three reads can be out of bounds. -/
theorem outOfBoundsOnlyAtTop : Obligations.OutOfBoundsOnlyAtTop := by
  refine ⟨fun s addr hle => ⟨memRead_of_le hle, fun v => memWrite_error_iff.2 ⟨hle, rfl⟩⟩, fun s hsize hs => ⟨?_, ?_⟩⟩
  · rintro ⟨addr, h⟩
    obtain hf | ⟨f, -, hop | ⟨x, hx⟩ | ⟨i, hi⟩⟩ := step_fault_cases h
    · obtain ⟨_, ⟨⟩, hle, -, htop⟩ := fetch_error hf
      omega
    · cases hop
    · cases hx
    · obtain ⟨hpush, hpop⟩ := stack_in_bounds hsize
      cases hi with
      | push _ hle => exact absurd hpush (Nat.not_lt_of_le hle)
      | pop _ hle => exact absurd hpop (Nat.not_lt_of_le hle)
  · intro htop
    exact faultsAtTopOfMemory s hs (by omega)

end Sys2Proof.Machine
end

section
/-! SUPPORT. The stack across two cycles: what a push stored is what a later fetch, POP or RET reads (20_memory.md R50,
42_stack.md R86, R88). -/

namespace Sys2Proof.Machine

/-- Settles O17: PSH leaves the register's value in the cell below the old SP, and the advance does not touch it. -/
theorem fetchSeesPushedByte : Obligations.FetchSeesPushedByte := by
  intro s t op a f hinv hrun ht hpc hf
  obtain ⟨u, hu, rfl⟩ := runInstr_next_iff.1 (hrun.step_eq ▸ ht)
  obtain ⟨ha, -, rfl⟩ := exec_psh_next_iff.1 hu
  obtain ⟨-, rfl⟩ := fetch_ok_iff.1 hf
  refine ⟨ha, ?_⟩
  rw [hpc, advance_mem, ← s.pushAddr_eq, ← s.decSp_reg_eq]
  exact State.pushed_read_pushAddr hinv.canonical _

/-- Settles O26: POP reads the cell PSH wrote, which holds the register, and moves SP back. -/
theorem pushThenPopRestores : Obligations.PushThenPopRestores := by
  intro a s ha hwf hne hroom
  obtain ⟨-, hpsh, -⟩ := pshPushesRegister
  obtain ⟨-, hpop, -⟩ := popPopsRegister
  obtain ⟨t, ht, htsp, haddr, htop, htregs, htmem, -, -, -, -, htcfg, -⟩ := hpsh a s ha hwf hroom
  have hpopAddr : t.popAddr = s.pushAddr := by rw [State.popAddr, htsp, haddr]
  obtain ⟨u, hu, -, hother, -, huregs, humem, -⟩ := hpop a t ha (by rwa [hpopAddr, htcfg])
  obtain ⟨hua, husp⟩ := hother hne
  have hread : ∀ addr, u.mem.read addr = t.mem.read addr := fun addr => humem addr List.not_mem_nil
  rw [if_neg hne] at htop
  refine ⟨t, u, ht, hu, State.regs_ext fun r => ?_, (hread _).trans htop,
    fun addr h => (hread addr).trans (htmem addr h)⟩
  by_cases hrsp : r = spIndex
  · subst hrsp
    calc u.sp = s.sp - 1 + 1 := by rw [husp, htsp]
      _ = s.sp := sub_add_cancel ..
  · by_cases hra : r = ⟨a.toNat, ha⟩
    · rw [hra, hua, hpopAddr, htop]
    · rw [huregs r (by simp [hra, hrsp]), htregs r (by simp [hrsp])]

/-- Settles O27: RET reads the return address CAL stored, which fits a byte, and moves SP back. -/
theorem callThenReturnResumes : Obligations.CallThenReturnResumes := by
  intro s t v op a hinv hrun ht hcfg hsp hcell
  obtain ⟨-, hcal, hfits, -⟩ := calCallsSubroutine
  obtain ⟨-, hret, -⟩ := retReturns
  obtain ⟨w, hw, -⟩ := hrun.step_pc_of_setsPc hinv.admissible rfl ht
  obtain ⟨ha, hroom, -⟩ := exec_cal_next_iff.1 hw
  obtain ⟨t', ht', htsp, haddr, hreturn, -, -, -, -, -, -, htcfg, -⟩ := hcal a s ha hinv.canonical hroom
  rw [engineLeavesPc rfl s op t' hinv.admissible hrun ht'] at ht
  cases ht
  have hpopAddr : t.popAddr = s.pushAddr := by rw [State.popAddr, htsp, haddr]
  have hvAddr : v.popAddr = t.popAddr := congrArg BitVec.toNat hsp
  obtain ⟨u, hu, -, hpc, husp, -⟩ := hret v (by rwa [hvAddr, hpopAddr, hcfg, htcfg])
  refine ⟨u, hu, ?_, ?_⟩
  · have hle := hfits s op a hinv.admissible hrun
    rw [hpc, hcell, hpopAddr, hreturn]
    omega
  · rw [husp, hsp, htsp]
    exact sub_add_cancel ..

end Sys2Proof.Machine
end

section
/-! SUPPORT. The text form of an image: what one line contributes, and how the lines of a text are read
(70_reset_and_hazards.md R119, R121). -/

namespace Sys2Proof.Machine

/-! ### Binary literals -/

theorem binaryDigit_eq_some_iff {c : Char} {d : Nat} :
    binaryDigit c = some d ↔ (c = '0' ∧ d = 0) ∨ (c = '1' ∧ d = 1) := by
  unfold binaryDigit
  split_ifs with h0 h1
  · subst h0
    simp [eq_comm]
  · subst h1
    simp [eq_comm]
  · simp [h0, h1]

theorem binaryDigit_injective {c c' : Char} {d : Nat} (h : binaryDigit c = some d) (h' : binaryDigit c' = some d) :
    c = c' := by
  rw [binaryDigit_eq_some_iff] at h h'
  obtain ⟨rfl, rfl⟩ | ⟨rfl, rfl⟩ := h
  · simpa [eq_comm] using h'
  · simpa [eq_comm] using h'

theorem binaryValue_cons_eq_some_iff {acc n : Nat} {c : Char} {rest : List Char} :
    binaryValue acc (c :: rest) = some n ↔ ∃ d, binaryDigit c = some d ∧ binaryValue (2 * acc + d) rest = some n := by
  rw [binaryValue]
  cases binaryDigit c <;> simp

/-- The value read on from `acc` is `acc` followed by the digits: dropping as many binary places gives `acc` back. -/
theorem binaryValue_div {acc n : Nat} {cs : List Char} (h : binaryValue acc cs = some n) : n / 2 ^ cs.length = acc := by
  induction cs generalizing acc with
  | nil => simpa [binaryValue, eq_comm] using h
  | cons c rest ih =>
    obtain ⟨d, hd, hrest⟩ := binaryValue_cons_eq_some_iff.1 h
    have hd2 : d < 2 := by
      obtain ⟨-, rfl⟩ | ⟨-, rfl⟩ := binaryDigit_eq_some_iff.1 hd <;> decide
    rw [List.length_cons, pow_succ, ← Nat.div_div_eq_div_mul, ih hrest]
    omega

/-- A value has one literal of each length. -/
theorem binaryValue_injective {acc acc' n : Nat} {cs cs' : List Char} (hlen : cs.length = cs'.length)
    (h : binaryValue acc cs = some n) (h' : binaryValue acc' cs' = some n) : cs = cs' := by
  induction cs generalizing acc acc' cs' with
  | nil => exact (List.length_eq_zero_iff.1 hlen.symm).symm
  | cons c rest ih =>
    obtain _ | ⟨c', rest'⟩ := cs'
    · cases hlen
    · have hacc : acc = acc' := by rw [← binaryValue_div h, ← binaryValue_div h', hlen]
      obtain ⟨d, hd, hrest⟩ := binaryValue_cons_eq_some_iff.1 h
      obtain ⟨d', hd', hrest'⟩ := binaryValue_cons_eq_some_iff.1 h'
      have hlen' : rest.length = rest'.length := Nat.succ.inj hlen
      have hdigit : 2 * acc + d = 2 * acc' + d' := by rw [← binaryValue_div hrest, ← binaryValue_div hrest', hlen']
      obtain rfl : d = d' := by omega
      rw [binaryDigit_injective hd hd', ih hlen' hrest hrest']

theorem binaryDigit_bit (b : Bool) : binaryDigit (if b then '1' else '0') = some b.toNat := by cases b <;> rfl

/-- Reading the `n` low bits of `x`, highest first, after the bits above them gives `x`. -/
theorem binaryValue_testBits (x n : Nat) :
    binaryValue (x / 2 ^ n) ((List.range n).reverse.map fun i => if x.testBit i then '1' else '0') = some x := by
  induction n with
  | zero => simp [binaryValue]
  | succ n ih =>
    have hstep : 2 * (x / 2 ^ (n + 1)) + (x.testBit n).toNat = x / 2 ^ n := by
      rw [Nat.toNat_testBit, pow_succ, ← Nat.div_div_eq_div_mul, Nat.div_add_mod]
    rw [List.range_succ, List.reverse_concat, List.map_cons]
    exact binaryValue_cons_eq_some_iff.2 ⟨_, binaryDigit_bit _, by rw [hstep, ih]⟩

/-- The line of a byte is the literal of its value. -/
theorem binaryValue_byteLine (v : Byte) : binaryValue 0 (byteLine v) = some v.toNat := by
  have h := binaryValue_testBits v.toNat 8
  rw [Nat.div_eq_of_lt v.isLt] at h
  exact h

theorem length_byteLine (v : Byte) : (byteLine v).length = 8 := rfl

theorem mem_byteLine {v : Byte} {c : Char} (h : c ∈ byteLine v) : c = '0' ∨ c = '1' := by
  obtain ⟨i, -, rfl⟩ := List.mem_map.1 h
  split
  · exact .inr rfl
  · exact .inl rfl

/-- The literals of 8 digits are the lines of the bytes. -/
theorem eq_byteLine {cs : List Char} {n : Nat} (hlen : cs.length = 8) (h : binaryValue 0 cs = some n) :
    cs = byteLine (BitVec.ofNat 8 n) := by
  have hn : n < 256 := by
    have hdiv := binaryValue_div h
    rw [hlen] at hdiv
    omega
  have hline := binaryValue_byteLine (BitVec.ofNat 8 n)
  rw [BitVec.toNat_ofNat, Nat.mod_eq_of_lt hn] at hline
  exact binaryValue_injective hlen h hline

/-! ### What stands between blanks and before a comment -/

theorem dropWhile_blanks_append {blanks text : List Char} (hblanks : ∀ c ∈ blanks, isBlank c = true)
    (htext : ∀ c ∈ text.head?, isBlank c = false) : (blanks ++ text).dropWhile isBlank = text := by
  rw [List.dropWhile_append_of_pos hblanks]
  cases text with
  | nil => rfl
  | cons c text => exact List.dropWhile_cons_of_neg (by simp [htext c rfl])

/-- What is left of a text without blanks, put between blanks, is the text. -/
theorem trimBlanks_append {before core after : List Char} (hbefore : ∀ c ∈ before, isBlank c = true)
    (hcore : ∀ c ∈ core, isBlank c = false) (hafter : ∀ c ∈ after, isBlank c = true) :
    trimBlanks (before ++ core ++ after) = core := by
  rw [trimBlanks, List.append_assoc]
  cases core with
  | nil =>
    rw [List.dropWhile_append_of_pos hbefore, List.nil_append, List.dropWhile_eq_nil_iff.2 hafter]
    rfl
  | cons c rest =>
    have hlast : ∀ x ∈ (c :: rest).reverse.head?, isBlank x = false := fun x hx =>
      hcore x (List.mem_reverse.1 (List.mem_of_mem_head? hx))
    rw [dropWhile_blanks_append hbefore (by simp [hcore c (.head _)]), List.reverse_append,
      dropWhile_blanks_append (fun x hx => hafter x (List.mem_reverse.1 hx)) hlast, List.reverse_reverse]

/-- A comment does not count (R119). -/
theorem strippedLine_eq {text : List Char} (h : ∀ c ∈ text, c ≠ '#') :
    strippedLine text = trimBlanks text ∧ ∀ comment, strippedLine (text ++ '#' :: comment) = trimBlanks text := by
  have hkeep : ∀ c ∈ text, (c != '#') = true := fun c hc => bne_iff_ne.2 (h c hc)
  refine ⟨?_, fun comment => ?_⟩
  · rw [strippedLine, List.takeWhile_eq_self_iff.2 hkeep]
  · rw [strippedLine, List.takeWhile_append_of_pos hkeep, List.takeWhile_cons_of_neg (by decide), List.append_nil]

theorem ne_hash_of_isBlank {c : Char} (h : isBlank c = true) : c ≠ '#' := by
  rintro rfl
  cases h

/-- A text without blanks and `#` is what is left of a line that holds it between blanks, with a comment or none. -/
theorem strippedLine_between {before core after : List Char} (hbefore : ∀ c ∈ before, isBlank c = true)
    (hcore : ∀ c ∈ core, isBlank c = false ∧ c ≠ '#') (hafter : ∀ c ∈ after, isBlank c = true) :
    strippedLine (before ++ core ++ after) = core ∧
      ∀ comment, strippedLine (before ++ core ++ after ++ '#' :: comment) = core := by
  have hhash : ∀ c ∈ before ++ core ++ after, c ≠ '#' := by
    intro c hc
    obtain (hc | hc) | hc := List.mem_append.1 hc |>.imp_left List.mem_append.1
    · exact ne_hash_of_isBlank (hbefore c hc)
    · exact (hcore c hc).2
    · exact ne_hash_of_isBlank (hafter c hc)
  have htrim : trimBlanks (before ++ core ++ after) = core :=
    trimBlanks_append hbefore (fun c hc => (hcore c hc).1) hafter
  simpa only [htrim] using strippedLine_eq hhash

/-! ### One line -/

section
variable {line : List Char}

theorem parseLine_eq_blank_iff : parseLine line = .blank ↔ strippedLine line = [] := by
  simp only [parseLine]
  split_ifs with h0 h8
  · simp [h0]
  · cases binaryValue 0 (strippedLine line) <;> simp [h0]
  · simp [h0]

theorem parseLine_eq_byte_iff {v : Byte} : parseLine line = .byte v ↔ strippedLine line = byteLine v := by
  constructor
  · intro h
    simp only [parseLine] at h
    split_ifs at h with h0 h8
    cases hb : binaryValue 0 (strippedLine line) with
    | none => simp [hb] at h
    | some n =>
      obtain rfl : BitVec.ofNat 8 n = v := by simpa [hb] using h
      exact eq_byteLine h8 hb
  · intro h
    have h0 : byteLine v ≠ [] := nofun
    simp only [parseLine, h, if_neg h0, if_pos (length_byteLine v), binaryValue_byteLine, BitVec.ofNat_toNat,
      BitVec.setWidth_eq]

end

/-! ### The lines of a text -/

section
variable {line : List Char}

theorem parseLines_cons_of_malformed (h : parseLine line = .malformed) (n : Nat) (rest : List (List Char)) :
    parseLines n (line :: rest) = .error (.malformedLine n line) := by
  simp only [parseLines, h]

theorem parseLines_cons_of_blank (h : parseLine line = .blank) (n : Nat) (rest : List (List Char)) :
    parseLines n (line :: rest) = parseLines (n + 1) rest := by
  simp only [parseLines, h]

theorem parseLines_cons_of_byte {v : Byte} (h : parseLine line = .byte v) (n : Nat) (rest : List (List Char)) :
    parseLines n (line :: rest) = (parseLines (n + 1) rest).map (v :: ·) := by
  simp only [parseLines, h]
  cases parseLines (n + 1) rest <;> rfl

end

/-- A text with a malformed line is not read, and one of its malformed lines is reported by its number. -/
theorem parseLines_of_malformed {lines : List (List Char)} (h : ∃ line ∈ lines, parseLine line = .malformed) (n : Nat) :
    ∃ k text, parseLines n lines = .error (.malformedLine (n + k) text) ∧ lines[k]? = some text ∧
      parseLine text = .malformed := by
  induction lines generalizing n with
  | nil => obtain ⟨_, ⟨⟩, -⟩ := h
  | cons line rest ih =>
    by_cases hline : parseLine line = .malformed
    · exact ⟨0, line, parseLines_cons_of_malformed hline n rest, rfl, hline⟩
    · have hrest : ∃ line ∈ rest, parseLine line = .malformed := by simpa [hline] using h
      obtain ⟨k, text, herror, hk, htext⟩ := ih hrest (n + 1)
      refine ⟨k + 1, text, ?_, hk, htext⟩
      rw [Nat.add_assoc, Nat.add_comm 1 k] at herror
      cases hform : parseLine line with
      | malformed => exact absurd hform hline
      | blank => rw [parseLines_cons_of_blank hform, herror]
      | byte v =>
        rw [parseLines_cons_of_byte hform, herror]
        rfl

/-- The bytes of a text without a malformed line are those its lines contribute, in order. -/
theorem parseLines_of_wellFormed {lines : List (List Char)} (h : ∀ line ∈ lines, parseLine line ≠ .malformed)
    (n : Nat) :
    ∃ image, parseLines n lines = .ok image ∧
      image.map LineForm.byte = (lines.map parseLine).filter fun f => f != LineForm.blank := by
  induction lines generalizing n with
  | nil => exact ⟨[], rfl, rfl⟩
  | cons line rest ih =>
    obtain ⟨hline, hrest⟩ := List.forall_mem_cons.1 h
    obtain ⟨image, hok, himage⟩ := ih hrest (n + 1)
    cases hform : parseLine line with
    | malformed => exact absurd hform hline
    | blank => exact ⟨image, by rw [parseLines_cons_of_blank hform, hok], by simp [hform, himage]⟩
    | byte v =>
      refine ⟨v :: image, ?_, by simp [hform, himage]⟩
      rw [parseLines_cons_of_byte hform, hok]
      rfl

/-- Settles O50: the load of such a text is a load error, so the machine is Faulted before its first cycle. -/
theorem malformedTextNeverRuns : Obligations.MalformedTextNeverRuns := by
  intro c lines line hmem hline
  obtain ⟨k, text, herror, hk, htext⟩ := parseLines_of_malformed ⟨line, hmem, hline⟩ 0
  rw [Nat.zero_add] at herror
  have hstatus : (boot c lines).status = .faulted (.loadError (.malformedLine k text)) := by
    rw [boot, loadText, herror]
    rfl
  exact ⟨⟨k, text, hstatus, hk, htext⟩, runFor_of_not_running (by simp [hstatus])⟩

/-- Settles O51: a line is read by what is left of it between blanks and before a comment, and a text line by line. -/
theorem imageLinesAreRead : Obligations.ImageLinesAreRead := by
  refine ⟨fun v before after comment hbefore hafter => ?_, fun line v => parseLine_eq_byte_iff.1,
    fun line => parseLine_eq_blank_iff.1, fun n lines => ?_⟩
  · have hdigits : ∀ c ∈ byteLine v, isBlank c = false ∧ c ≠ '#' := by
      intro c hc
      obtain rfl | rfl := mem_byteLine hc <;> decide
    obtain ⟨hbyte, hcomment⟩ := strippedLine_between hbefore hdigits hafter
    obtain ⟨hblank, hblankComment⟩ := strippedLine_between (core := []) (after := []) hbefore nofun nofun
    simp only [List.append_nil] at hblank hblankComment
    exact ⟨parseLine_eq_byte_iff.2 hbyte, parseLine_eq_byte_iff.2 (hcomment comment), parseLine_eq_blank_iff.2 hblank,
      parseLine_eq_blank_iff.2 (hblankComment comment)⟩
  · by_cases h : ∀ line ∈ lines, parseLine line ≠ .malformed
    · obtain ⟨image, hok, himage⟩ := parseLines_of_wellFormed h n
      refine ⟨⟨fun _ => h, fun _ => ⟨image, hok⟩⟩, fun image' hok' => ?_⟩
      rw [hok] at hok'
      cases hok'
      exact himage
    · obtain ⟨k, text, herror, -⟩ := parseLines_of_malformed (by push Not at h; exact h) n
      rw [herror]
      exact ⟨⟨nofun, fun hall => absurd hall h⟩, nofun⟩

end Sys2Proof.Machine
end

section
/-! SUPPORT. A line of assembly: its words, and the text of each operand (30_encoding.md R65, R66). -/

namespace Sys2Proof.Machine

/-! ### The words of a line -/

/-- The letters of a word are collected in reverse. -/
theorem splitWords_append {word : List Char} (h : word.any isSeparator = false) (letters rest : List Char) :
    splitWords letters (word ++ rest) = splitWords (word.reverse ++ letters) rest := by
  induction word generalizing letters with
  | nil => rfl
  | cons c word ih =>
    obtain ⟨hc, hword⟩ : isSeparator c = false ∧ word.any isSeparator = false := by simpa using h
    rw [List.cons_append, splitWords, hc, if_neg Bool.false_ne_true, ih hword, List.reverse_cons, List.append_assoc]
    rfl

/-- A word of a line: some letters, none of which separates words. -/
def IsWord (word : List Char) : Prop := word ≠ [] ∧ word.any isSeparator = false

theorem splitWords_word {word : List Char} (h : IsWord word) : splitWords [] word = [word] := by
  obtain ⟨hne, hsep⟩ := h
  have happend := splitWords_append hsep [] []
  rw [List.append_nil, List.append_nil] at happend
  rw [happend, splitWords, if_neg (List.reverse_ne_nil_iff.2 hne), List.reverse_reverse]

theorem splitWords_cons_of_separator {c : Char} (h : isSeparator c = true) (rest : List Char) :
    splitWords [] (c :: rest) = splitWords [] rest := by
  rw [splitWords, h, if_pos rfl, if_pos rfl]

/-- A word ends at a separator. -/
theorem splitWords_word_append {word : List Char} (h : IsWord word) {c : Char} (hc : isSeparator c = true)
    (rest : List Char) : splitWords [] (word ++ c :: rest) = word :: splitWords [] rest := by
  obtain ⟨hne, hsep⟩ := h
  rw [splitWords_append hsep, List.append_nil, splitWords, hc, if_pos rfl, if_neg (List.reverse_ne_nil_iff.2 hne),
    List.reverse_reverse]

/-! ### The mnemonic -/

theorem mnemonicText_isWord (k : Mnemonic) : IsWord (mnemonicText k) := by
  cases k <;> exact ⟨nofun, rfl⟩

theorem parseMnemonic_mnemonicText (k : Mnemonic) : parseMnemonic (mnemonicText k) = some k := by cases k <;> decide

theorem assembleLine_of_words {line word : List Char} {operands : List (List Char)} {k : Mnemonic}
    (hline : splitWords [] line = word :: operands) (hword : parseMnemonic word = some k) :
    assembleLine line = parseOperands k operands := by
  simp only [assembleLine, hline, hword]

/-! ### Digits -/

section
variable {d : Nat}

theorem digitText_toNat (h : d < 10) : (digitText d).toNat = 48 + d := by
  interval_cases d <;> rfl

theorem digitValue_digitText {base : Nat} (hd : d < 10) (hbase : d < base) :
    digitValue base (digitText d) = some d := by
  have h48 : 48 ≤ 48 + d ∧ 48 + d ≤ 57 := by omega
  simp [digitValue, digitText_toNat hd, h48, hbase]

theorem digitText_not_separator (h : d < 10) : isSeparator (digitText d) = false := by
  interval_cases d <;> decide

end

/-- The text of a list of digits. -/
abbrev digitsText (ds : List Nat) : List Char := ds.map digitText

/-- The number a list of digits stands for, read on from `acc`. -/
abbrev decimalValue (acc : Nat) (ds : List Nat) : Nat := ds.foldl (fun n d => 10 * n + d) acc

section
variable {ds : List Nat} (h : ∀ d ∈ ds, d < 10)
include h

theorem digitsValue_digitsText (acc : Nat) : digitsValue 10 acc (digitsText ds) = some (decimalValue acc ds) := by
  induction ds generalizing acc with
  | nil => rfl
  | cons d ds ih =>
    obtain ⟨hd, hds⟩ := List.forall_mem_cons.1 h
    simp only [digitsText, List.map_cons, digitsValue, digitValue_digitText hd hd]
    exact ih hds _

theorem digitsText_isWord (hne : ds ≠ []) : IsWord (digitsText ds) := by
  refine ⟨List.map_eq_nil_iff.not.2 hne, ?_⟩
  rw [List.any_map, List.any_eq_false]
  exact fun d hd => by simp [digitText_not_separator (h d hd)]

theorem digitsText_letter {c : Char} (hc : c ∈ digitsText ds) : c ≠ 'b' ∧ c ≠ 'x' := by
  have hletter : ∀ d < 10, digitText d ≠ 'b' ∧ digitText d ≠ 'x' := by decide
  obtain ⟨d, hd, rfl⟩ := List.mem_map.1 hc
  exact hletter d (h d hd)

/-- A text of digits has no `b` and no `x` in second place, so it is read as a decimal number. -/
theorem parseNumber_digitsText (hne : ds ≠ []) : parseNumber (digitsText ds) = some (decimalValue 0 ds) := by
  rw [← digitsValue_digitsText h 0, parseNumber.eq_def]
  split
  case h_1 heq => exact absurd (List.map_eq_nil_iff.1 heq) hne
  case h_2 heq => exact absurd rfl (digitsText_letter h (heq ▸ .tail _ (.head _) : 'b' ∈ digitsText ds)).1
  case h_3 heq => exact absurd rfl (digitsText_letter h (heq ▸ .tail _ (.head _) : 'x' ∈ digitsText ds)).2
  case h_4 heq => rw [heq]

end

theorem byteText_digits (v : Byte) :
    ∃ ds, byteText v = digitsText ds ∧ ds ≠ [] ∧ (∀ d ∈ ds, d < 10) ∧ decimalValue 0 ds = v.toNat := by
  have hlt : v.toNat < 256 := v.isLt
  simp only [byteText]
  split_ifs with h10 h100
  · exact ⟨[v.toNat], rfl, nofun, by simp [h10], by simp⟩
  · refine ⟨[v.toNat / 10, v.toNat % 10], rfl, nofun, ?_, ?_⟩
    · simp
      omega
    · simp
      omega
  · refine ⟨[v.toNat / 100, v.toNat / 10 % 10, v.toNat % 10], rfl, nofun, ?_, ?_⟩
    · simp
      omega
    · simp
      omega

/-! ### The operands -/

section
variable {a : Byte}

theorem registerText_isWord (h : a.toNat < regCount) : IsWord (registerText a) := by
  have hdigit := digitText_not_separator (Nat.lt_trans h (by decide : regCount < 10))
  have hR : isSeparator 'R' = false := by decide
  exact ⟨nofun, by simp [registerText, hdigit, hR]⟩

theorem parseRegister_registerText (h : a.toNat < regCount) : parseRegister (registerText a) = some a := by
  have hdigit := digitValue_digitText (Nat.lt_trans h (by decide : regCount < 10)) h
  have hR : upperLetter 'R' = 'R' := by decide
  simp only [parseRegister, registerText, hR, if_pos, hdigit, BitVec.ofNat_toNat, BitVec.setWidth_eq]

end

theorem byteText_isWord (v : Byte) : IsWord (byteText v) := by
  obtain ⟨ds, htext, hne, hlt, -⟩ := byteText_digits v
  exact htext ▸ digitsText_isWord hlt hne

theorem parseImmediate_byteText (v : Byte) : parseImmediate (byteText v) = some v := by
  obtain ⟨ds, htext, hne, hlt, hvalue⟩ := byteText_digits v
  have hbyte : v.toNat < 256 := v.isLt
  simp [parseImmediate, htext, parseNumber_digitsText hlt hne, hvalue, hbyte]

/-! ### The line -/

theorem assembleLine_mnemonicText (k : Mnemonic) : assembleLine (mnemonicText k) = parseOperands k [] :=
  assembleLine_of_words (splitWords_word (mnemonicText_isWord k)) (parseMnemonic_mnemonicText k)

theorem assembleLine_mnemonicText_append (k : Mnemonic) (operands : List Char) :
    assembleLine (mnemonicText k ++ ' ' :: operands) = parseOperands k (splitWords [] operands) :=
  assembleLine_of_words (splitWords_word_append (mnemonicText_isWord k) rfl operands) (parseMnemonic_mnemonicText k)

/-- Two operands, written with a comma and a space between them. -/
theorem splitWords_pair {x y : List Char} (hx : IsWord x) (hy : IsWord y) :
    splitWords [] (x ++ [',', ' '] ++ y) = [x, y] := by
  rw [List.append_assoc, List.cons_append, splitWords_word_append hx rfl, List.singleton_append,
    splitWords_cons_of_separator rfl, splitWords_word hy]

/-! ### The line of each format (R54, R65) -/

section
variable {k : Mnemonic} {a b imm : Byte}

theorem assembleLine_f0 (hk : k.format = .f0) : assembleLine (mnemonicText k) = some (buildInstr k 0 0) := by
  rw [assembleLine_mnemonicText]
  simp only [parseOperands, hk]

theorem assembleLine_f1r (hk : k.format = .f1r) (ha : a.toNat < regCount) :
    assembleLine (mnemonicText k ++ ' ' :: registerText a) = some (buildInstr k a 0) := by
  rw [assembleLine_mnemonicText_append, splitWords_word (registerText_isWord ha)]
  simp only [parseOperands, hk, parseRegister_registerText ha]

theorem assembleLine_f2rr (hk : k.format = .f2rr) (ha : a.toNat < regCount) (hb : b.toNat < regCount) :
    assembleLine (mnemonicText k ++ ' ' :: (registerText a ++ [',', ' '] ++ registerText b)) =
      some (buildInstr k a b) := by
  rw [assembleLine_mnemonicText_append, splitWords_pair (registerText_isWord ha) (registerText_isWord hb)]
  simp only [parseOperands, hk, parseRegister_registerText ha, parseRegister_registerText hb]

theorem assembleLine_f2ri (hk : k.format = .f2ri) (ha : a.toNat < regCount) :
    assembleLine (mnemonicText k ++ ' ' :: (registerText a ++ [',', ' '] ++ byteText imm)) =
      some (buildInstr k a imm) := by
  rw [assembleLine_mnemonicText_append, splitWords_pair (registerText_isWord ha) (byteText_isWord imm)]
  simp only [parseOperands, hk, parseRegister_registerText ha, parseImmediate_byteText]

end

/-- Settles O52: the words of the canonical text are the mnemonic and the operands, each of which is read back. -/
theorem assemblyRoundTrip : Obligations.AssemblyRoundTrip := by
  refine ⟨fun i hwf => ?_, fun operands => ?_⟩
  · have hreg : ∀ x ∈ i.regOperands, x.toNat < regCount := Instr.regOperands_lt hwf
    cases i with
    | hlt => exact assembleLine_f0 (k := .hlt) rfl
    | ret => exact assembleLine_f0 (k := .ret) rfl
    | ldi a imm => exact assembleLine_f2ri rfl (hreg a (.head _))
    | prn a | psh a | pop a | cal a | jmp a | jeq a | jne a => exact assembleLine_f1r rfl (hreg a (.head _))
    | add a b | mul a b | cmp a b => exact assembleLine_f2rr rfl (hreg a (.head _)) (hreg b (.tail _ (.head _)))
  · have hcall : IsWord ['C', 'A', 'L', 'L'] := ⟨nofun, rfl⟩
    exact (assembleLine_of_words (splitWords_word_append hcall rfl operands) rfl).trans
      (assembleLine_mnemonicText_append .cal operands).symm

end Sys2Proof.Machine
end
